-- ==== Sys2Proof/Word.lean ====
section
/-! DEFINITION. The two word types of the block (00_scope R5): a byte `u8` and a 16-bit word `u16`. All
arithmetic of the block is on unsigned values. -/

namespace Sys2Proof

/-- `u8` (R5). -/
abbrev Byte := BitVec 8

/-- `u16` (R5): the width of the CRC register. -/
abbrev Word16 := BitVec 16

end Sys2Proof
end

