-- ==== Sys2Proof/Config.lean ====
section
/-! DEFINITION. The parameters of the block (00_scope R4), as a configuration record that every operation takes as an
argument. They are fixed at build time and are no state (R23, R25 a). The machine handed to the host is the one at the
defaults the spec prints (log 8). -/

namespace Sys2Proof

/-- R4's table: one field per parameter. -/
structure Config where
  /-- `P_POLY`: the CRC generator polynomial, the x^16 term implicit (R86). -/
  poly : Word16
  /-- `P_INIT`: the initial CRC register value. -/
  init : Word16
  /-- `P_REFIN`: input reflection (what it does when true: log 31). -/
  refIn : Bool
  /-- `P_REFOUT`: output reflection (what it does when true: log 31). -/
  refOut : Bool
  /-- `P_XOROUT`: the final XOR (where it applies when not 0: log 31). -/
  xorOut : Word16
  /-- `P_VER`: the version byte of every frame. -/
  ver : Byte
  /-- `P_SOF`: the start-of-frame marker. -/
  sof : Byte
  /-- `P_EOF`: the end-of-frame marker. -/
  eof : Byte
  /-- `P_ESC`: the escape marker. -/
  esc : Byte
  /-- `P_MASK`: the escape XOR mask. -/
  mask : Byte
  /-- `P_MAX_PAYLOAD`: the largest payload the encoder sends (R91). -/
  maxPayload : Nat
  /-- `P_HDR`: the header bytes VER, TYPE, FLAGS, SEQ, LEN. -/
  hdr : Nat
  /-- `P_MIN_BODY`: the least unescaped body length the decoder accepts (R121). -/
  minBody : Nat
  /-- `P_MAX_ACC`: the capacity in bytes of the accumulation buffer (R110; D6 and U12 leave it open). -/
  maxAcc : Nat
  /-- `P_SLOT_BYTES`: bytes per message slot, both classes (R57). -/
  slotBytes : Nat
  /-- `P_N_NORMAL`: slots of the NORMAL ring buffer (R130). -/
  nNormal : Nat
  /-- `P_N_EMERGENCY`: slots of the EMERGENCY ring buffer (R130). -/
  nEmergency : Nat
  /-- `P_EN_VALUE`: the nonzero value RB_ADD writes into a slot's enabled flag (D14 and U14 leave it open). -/
  enValue : Byte
deriving DecidableEq, Repr

/-- The default of every parameter: the value R4 prints. -/
@[reducible] def Config.default : Config where
  poly := 0x1021
  init := 0xFFFF
  refIn := false
  refOut := false
  xorOut := 0x0000
  ver := 0x02
  sof := 0x7E
  eof := 0x7F
  esc := 0x7D
  mask := 0x20
  maxPayload := 64
  hdr := 5
  minBody := 7
  maxAcc := 256
  slotBytes := 19
  nNormal := 7
  nEmergency := 3
  enValue := 0x01

/-- The content bytes of a slot: all but the enabled flag and the padding (R57, R62). -/
def Config.contentBytes (p : Config) : Nat := p.slotBytes - 2

/-- The two constraints R4 puts on the parameters. -/
structure Config.Valid (p : Config) : Prop where
  /-- The three markers are three different byte values. -/
  markers_differ : p.sof ≠ p.eof ∧ p.sof ≠ p.esc ∧ p.eof ≠ p.esc
  /-- A marker XOR the mask is not itself a marker. -/
  masked_no_marker : ∀ m ∈ [p.sof, p.eof, p.esc], m ^^^ p.mask ∉ [p.sof, p.eof, p.esc]

/-- What the formats presuppose of the parameters beside R4's constraints: the header and the least body are the fields
of R51, LEN is one byte (R52), a body the encoder builds fits the buffer (R56), a slot has its flag and padding (R57),
the flag is nonzero (R4), and the cursors fit the registers of R10 (log 8). -/
structure Config.Fits (p : Config) : Prop where
  hdr_eq : p.hdr = 5
  minBody_eq : p.minBody = 7
  payload_le : p.maxPayload ≤ 255
  body_le : p.maxPayload + 7 ≤ p.maxAcc
  slot_ge : 2 ≤ p.slotBytes
  enabled : p.enValue ≠ 0x00
  normal : 0 < p.nNormal ∧ p.nNormal ≤ 8
  emergency : 0 < p.nEmergency ∧ p.nEmergency ≤ 4

end Sys2Proof
end

