-- ==== Sys2Proof/Machine/Bits.lean ====
section
/-! DEFINITION. Byte order and bit order (20_memory R33, R34), once for the whole model. -/

namespace Sys2Proof

/-- `c[15:8]`, sent first (R33). -/
def hiByte (c : Word16) : Byte := (c >>> 8).setWidth 8

/-- `c[7:0]`, sent second (R33). -/
def loByte (c : Word16) : Byte := c.setWidth 8

/-- `(hi << 8) OR lo` (R67): a big-endian 16-bit value read back. -/
def join16 (hi lo : Byte) : Word16 := (hi.setWidth 16 <<< 8) ||| lo.setWidth 16

/-- The two bytes of a 16-bit value, high byte first (R33). -/
def beBytes (c : Word16) : List Byte := [hiByte c, loByte c]

/-- A byte as the CRC register takes it in: at the default `P_REFIN` = false the byte itself (R34, R82). DESIGN CHOICE:
with `P_REFIN` true, for which R82 gives no step, its bits reversed (log 31). -/
def crcIn (p : Config) (b : Byte) : Byte := if p.refIn then b.reverse else b

/-- The CRC register as CRC_READ gives it out: XOR `P_XOROUT`, not reflected (R83's comment). DESIGN CHOICE: with
`P_REFOUT` true, which R83 does not use, its bits reversed before that XOR (log 31). -/
def crcOut (p : Config) (c : Word16) : Word16 := (if p.refOut then c.reverse else c) ^^^ p.xorOut

/-- A number as one unsigned byte (R52, R62: the LEN and plen fields; R63: an index or a count). -/
def byteOf (n : Nat) : Byte := BitVec.ofNat 8 n

end Sys2Proof
end

