-- ==== Sys2Proof/Machine/Flags.lean ====
section
/-! DEFINITION. The block has no condition codes (10_state R22). What is flag-like: the class of a received byte (R55),
the enabled flag of a slot (R18, R57), and the two flag-like OUTPUTS `found` and `ill` (R22). -/

namespace Sys2Proof

/-- `is_marker(b)` (R5): `b` is `P_SOF`, `P_EOF` or `P_ESC`. -/
def isMarker (p : Config) (b : Byte) : Bool :=
  b == p.sof || b == p.eof || b == p.esc

/-- The enabled flag (R18, R57): `0x00` is empty, nonzero is occupied. -/
def isEnabled (flag : Byte) : Bool :=
  flag != 0x00

/-- The `found` byte of an RB_FIND response (R63). -/
def foundByte (found : Bool) : Byte :=
  if found then 0x01 else 0x00

/-- The `ill` indication, the response to an unassigned operation code (R64). -/
def illByte : Byte := 0xFF

end Sys2Proof
end

