-- ==== Sys2Proof/Machine/Vocab.lean ====
section
/-! DEFINITION. The names the operations are written with: the ring-buffer classes, the bad-frame reasons, a frame's
fields, the decoder's events, and the kinds of rows of the opcode table. -/

namespace Sys2Proof

/-- The two ring-buffer classes (R5, R130). -/
inductive MsgClass where
  | normal
  | emergency
deriving DecidableEq, Repr

/-- The five bad-frame reasons (R181). -/
inductive BadReason where
  | tooShort
  | badVersion
  | lenMismatch
  | crcMismatch
  | overflow
deriving DecidableEq, Repr

/-- The fields of the event FRAME (R125): a DecodedFrame. -/
structure Frame where
  version : Byte
  type : Byte
  flags : Byte
  seq : Byte
  payload : List Byte
  crc16 : Word16
deriving DecidableEq, Repr

/-- What a DEC_BYTE response carries (R9, R100): exactly one event. -/
inductive Event where
  | none
  | frame (f : Frame)
  | bad (r : BadReason)
deriving DecidableEq, Repr

/-- The 14 operations of the operation port (R61), without their operands. -/
inductive Opcode where
  | crcInit | crcByte | crcRead
  | stuff | encFrame
  | decReset | decByte
  | rbInit | rbAdd | rbFind | rbAdv | rbCount | rbRstd | rbRead
deriving DecidableEq, Repr

/-- The kinds of rows of the opcode table (R62): the four request shapes are one kind, since they share the code
byte's table; the others are value tables. -/
inductive RowKind where
  | op          -- OP, OP_B, OP_FRAME, OP_SLOT: a request on the operation port
  | wireByte    -- WIRE_BYTE: one received byte
  | wirePair    -- WIRE_PAIR: two received bytes
  | frameType   -- FRAME_TYPE: a received byte at body index 1
  | eventKind   -- EVENT_KIND: a DEC_BYTE response
  | badReason   -- BAD_REASON: the second byte of a BAD response
deriving DecidableEq, Repr

end Sys2Proof
end

