-- ==== Sys2Proof/Syntax.lean ====
section
/-! DEFINITION. The syntax: one constructor per row of the opcode table, operands as the spec lists them (30_encoding
R61, R62, R63). -/

namespace Sys2Proof

/-- One row of the opcode table with its operands. The first 14 are the operations the owner issues (R61); the next
13 are received bytes (R54, R55, R150); the last 8 are what the decoder answers (R63, R181; log 12). -/
inductive Instr where
  /-- CRC_INIT (R81). -/
  | crcInit
  /-- CRC_BYTE b (R82). -/
  | crcByte (b : Byte)
  /-- CRC_READ (R83). -/
  | crcRead
  /-- STUFF b (R92). -/
  | stuff (b : Byte)
  /-- ENC_FRAME type, flags, seq, payload (R93). -/
  | encFrame (type flags seq : Byte) (payload : List Byte)
  /-- DEC_RESET (R101). -/
  | decReset
  /-- DEC_BYTE b (R102). -/
  | decByte (b : Byte)
  /-- RB_INIT k (R132). -/
  | rbInit (k : MsgClass)
  /-- RB_ADD k, content (R133). -/
  | rbAdd (k : MsgClass) (content : List Byte)
  /-- RB_FIND k (R134). -/
  | rbFind (k : MsgClass)
  /-- RB_ADV k (R135). -/
  | rbAdv (k : MsgClass)
  /-- RB_COUNT k (R136). -/
  | rbCount (k : MsgClass)
  /-- RB_RSTD k (R137). -/
  | rbRstd (k : MsgClass)
  /-- RB_READ k (R138). -/
  | rbRead (k : MsgClass)
  /-- SOF: the start marker received (R55). -/
  | sof
  /-- EOF: the end marker received (R55). -/
  | eof
  /-- ESC: the escape marker received (R55). -/
  | esc
  /-- DATA: any other byte received (R55). -/
  | data (b : Byte)
  /-- ESC_PAIR_7E: the wire bytes 7D 5E received (R54). -/
  | escPair7E
  /-- ESC_PAIR_7F: the wire bytes 7D 5F received (R54). -/
  | escPair7F
  /-- ESC_PAIR_7D: the wire bytes 7D 5D received (R54). -/
  | escPair7D
  /-- TYPE_STATUS: the TYPE byte 01 received (R150, R58). -/
  | typeStatus
  /-- TYPE_TIME: the TYPE byte 02 received (R150, R58). -/
  | typeTime
  /-- TYPE_CALL: the TYPE byte 03 received (R150, R58). -/
  | typeCall
  /-- TYPE_NOTIFY: the TYPE byte 04 received (R150, R58). -/
  | typeNotify
  /-- TYPE_PING: the TYPE byte 05 received (R150, R58). -/
  | typePing
  /-- TYPE_ACK: the TYPE byte 10 received (R150, R58). -/
  | typeAck
  /-- EV_NONE: the decoder answers the event NONE (R63). -/
  | evNone
  /-- EV_FRAME: the decoder delivers the event FRAME (R63, R125). -/
  | evFrame (f : Frame)
  /-- EV_BAD: the decoder raises the report BAD(reason) (R63, R181). -/
  | evBad (r : BadReason)
  /-- TOO_SHORT: the decoder raises BAD(TOO_SHORT) (R121, R181). -/
  | tooShort
  /-- BAD_VERSION: the decoder raises BAD(BAD_VERSION) (R122, R181). -/
  | badVersion
  /-- LEN_MISMATCH: the decoder raises BAD(LEN_MISMATCH) (R123, R181). -/
  | lenMismatch
  /-- CRC_MISMATCH: the decoder raises BAD(CRC_MISMATCH) (R124, R181). -/
  | crcMismatch
  /-- OVERFLOW: the decoder raises BAD(OVERFLOW) (R110, R181). -/
  | overflow
deriving DecidableEq, Repr

end Sys2Proof
end

