-- ==== Sys2Proof/WellFormed.lean ====
section
/-! DEFINITION. Which terms of Instr stand for something the port, the wire or a response can carry. -/

namespace Sys2Proof

/-- The payload length the decoder can deliver at most: `P_MAX_ACC - 7`, 249 at the defaults (R126). -/
def maxDelivered (p : Config) : Nat := p.maxAcc - p.minBody

/-- The fields of a FRAME event as R125 and R126 bound them. -/
def Frame.wellFormed (p : Config) (f : Frame) : Bool :=
  f.version == p.ver && decide (f.payload.length ≤ maxDelivered p) && decide (f.payload.length ≤ 255)

/-- Operand bounds: `plen` is one byte (R62), RB_ADD takes exactly the content bytes of a slot, 17 at the
defaults (R62), DATA is no marker (R55), a FRAME event is one the decoder can give (R125, R126). Every other operand is
a whole byte or a name. -/
def Instr.wellFormed (p : Config) : Instr → Bool
  | .crcInit => true
  | .crcByte _ => true
  | .crcRead => true
  | .stuff _ => true
  | .encFrame _ _ _ payload => decide (payload.length ≤ 255)
  | .decReset => true
  | .decByte _ => true
  | .rbInit _ => true
  | .rbAdd _ content => decide (content.length = p.contentBytes)
  | .rbFind _ => true
  | .rbAdv _ => true
  | .rbCount _ => true
  | .rbRstd _ => true
  | .rbRead _ => true
  | .sof => true
  | .eof => true
  | .esc => true
  | .data b => !isMarker p b
  | .escPair7E => true
  | .escPair7F => true
  | .escPair7D => true
  | .typeStatus => true
  | .typeTime => true
  | .typeCall => true
  | .typeNotify => true
  | .typePing => true
  | .typeAck => true
  | .evNone => true
  | .evFrame f => f.wellFormed p
  | .evBad _ => true
  | .tooShort => true
  | .badVersion => true
  | .lenMismatch => true
  | .crcMismatch => true
  | .overflow => true

end Sys2Proof
end

