-- ==== Sys2Proof/Decode.lean ====
section
/-! DEFINITION. The decoders of the opcode table's row kinds, total on any bytes and rejecting by name; then the
encoder, written from the same tables (30_encoding R54, R55, R60 to R63; 44_context_clients R150; 60_exceptions
R181). -/

namespace Sys2Proof

/-- Why some bytes are no row of the kind asked for. -/
inductive Reject where
  /-- There is no byte to decode. -/
  | noBytes
  /-- An unassigned operation code (R64). -/
  | unassigned (op : Byte)
  /-- Fewer operand bytes than the code takes (R215). -/
  | truncated (op : Byte)
  /-- No row of this value table has this value. -/
  | notInTable
  /-- A response whose fields no event of the decoder has (R63, R125, R126). -/
  | badEvent
deriving DecidableEq, Repr

/-- What a decoder answers: the instruction with the bytes after it, or the name of the rejection. -/
inductive Decoded where
  | ok (i : Instr) (rest : List Byte)
  | rejected (r : Reject)
deriving DecidableEq, Repr

/-! ## Operation codes (R60, R61) -/

/-- One row of R61's table: an operation, its `match` and its `mask`. -/
structure OpRow where
  op : Opcode
  code : Byte
  mask : Byte
deriving DecidableEq, Repr

/-- R61's table. -/
def opTable : List OpRow :=
  [⟨.crcInit, 0x00, 0xFF⟩, ⟨.crcByte, 0x01, 0xFF⟩, ⟨.crcRead, 0x02, 0xFF⟩,
   ⟨.stuff, 0x10, 0xFF⟩, ⟨.encFrame, 0x11, 0xFF⟩,
   ⟨.decReset, 0x20, 0xFF⟩, ⟨.decByte, 0x21, 0xFF⟩]
  ++
  [⟨.rbInit, 0x30, 0xF7⟩, ⟨.rbAdd, 0x31, 0xF7⟩, ⟨.rbFind, 0x32, 0xF7⟩, ⟨.rbAdv, 0x33, 0xF7⟩,
   ⟨.rbCount, 0x34, 0xF7⟩, ⟨.rbRstd, 0x35, 0xF7⟩, ⟨.rbRead, 0x36, 0xF7⟩]

/-- A code byte is matched by a row when it agrees with `code` on the bits of `mask`. -/
def OpRow.matches (r : OpRow) (op : Byte) : Bool := op &&& r.mask == r.code

/-- The operation an operation code selects; none for an unassigned code (R64). -/
def lookupOp (op : Byte) : Option Opcode :=
  (opTable.find? (fun r => r.matches op)).map OpRow.op

/-- The class bit `op[3]` of a ring-buffer code: 0 NORMAL, 1 EMERGENCY (R60). -/
def classOf (op : Byte) : MsgClass := if op.getLsbD 3 then .emergency else .normal

/-- The class bit in its place (R60, R61). -/
def classBit : MsgClass → Byte
  | .normal => 0x00
  | .emergency => 0x08

/-! ## Requests (R62) -/

/-- A request of shape OP_B: the code and one byte. -/
def oneByteOp (mk : Byte → Instr) (op : Byte) : List Byte → Decoded
  | [] => .rejected (.truncated op)
  | b :: rest => .ok (mk b) rest

/-- A request of shape OP_FRAME: `type, flags, seq, plen`, then `plen` payload bytes. -/
def frameOp (op : Byte) : List Byte → Decoded
  | type :: flags :: seq :: plen :: rest =>
    if plen.toNat ≤ rest.length then
      .ok (.encFrame type flags seq (rest.take plen.toNat)) (rest.drop plen.toNat)
    else .rejected (.truncated op)
  | _ => .rejected (.truncated op)

/-- A request of shape OP_SLOT: the content bytes, 17 at the defaults. -/
def slotOp (p : Config) (op : Byte) (bytes : List Byte) : Decoded :=
  if p.contentBytes ≤ bytes.length then
    .ok (.rbAdd (classOf op) (bytes.take p.contentBytes)) (bytes.drop p.contentBytes)
  else .rejected (.truncated op)

/-- The operand bytes after the code byte `op` (R62). -/
def decodeOperands (p : Config) (op : Byte) (bytes : List Byte) : Opcode → Decoded
  | .crcInit => .ok .crcInit bytes
  | .crcByte => oneByteOp .crcByte op bytes
  | .crcRead => .ok .crcRead bytes
  | .stuff => oneByteOp .stuff op bytes
  | .encFrame => frameOp op bytes
  | .decReset => .ok .decReset bytes
  | .decByte => oneByteOp .decByte op bytes
  | .rbInit => .ok (.rbInit (classOf op)) bytes
  | .rbAdd => slotOp p op bytes
  | .rbFind => .ok (.rbFind (classOf op)) bytes
  | .rbAdv => .ok (.rbAdv (classOf op)) bytes
  | .rbCount => .ok (.rbCount (classOf op)) bytes
  | .rbRstd => .ok (.rbRstd (classOf op)) bytes
  | .rbRead => .ok (.rbRead (classOf op)) bytes

/-- One request from the front of the operation port's bytes (R60, R61, R62, R64). -/
def decodeOp (p : Config) : List Byte → Decoded
  | [] => .rejected .noBytes
  | op :: bytes =>
    match lookupOp op with
    | some o => decodeOperands p op bytes o
    | none => .rejected (.unassigned op)

/-! ## Received bytes (R54, R55, R150) -/

/-- The class of a received byte by value alone (R55). -/
def classify (p : Config) (b : Byte) : Instr :=
  if b = p.sof then .sof
  else if b = p.eof then .eof
  else if b = p.esc then .esc
  else .data b

/-- One WIRE_BYTE row. -/
def decodeWireByte (p : Config) : List Byte → Decoded
  | [] => .rejected .noBytes
  | b :: rest => .ok (classify p b) rest

/-- The three WIRE_PAIR rows by the second byte `x` (R54): the pair stands for `x XOR P_MASK`. -/
def pairOf (p : Config) (x : Byte) : Option Instr :=
  if x = p.sof ^^^ p.mask then some .escPair7E
  else if x = p.eof ^^^ p.mask then some .escPair7F
  else if x = p.esc ^^^ p.mask then some .escPair7D
  else none

/-- One WIRE_PAIR row: the escape marker and the escaped byte (R54). -/
def decodeWirePair (p : Config) : List Byte → Decoded
  | e :: x :: rest =>
    if e = p.esc then
      match pairOf p x with
      | some i => .ok i rest
      | none => .rejected .notInTable
    else .rejected .notInTable
  | _ => .rejected .noBytes

/-- R150's table of TYPE values; any other value has no row (R58: it is carried like the rest). -/
def typeOf (b : Byte) : Option Instr :=
  if b = 0x01 then some .typeStatus
  else if b = 0x02 then some .typeTime
  else if b = 0x03 then some .typeCall
  else if b = 0x04 then some .typeNotify
  else if b = 0x05 then some .typePing
  else if b = 0x10 then some .typeAck
  else none

/-- One FRAME_TYPE row: the TYPE byte of a frame (R51, R150). -/
def decodeFrameType : List Byte → Decoded
  | [] => .rejected .noBytes
  | b :: rest =>
    match typeOf b with
    | some i => .ok i rest
    | none => .rejected .notInTable

/-- The row at the front of the received bytes: an escape pair where one stands there, a TYPE value where the byte is
the frame's TYPE byte (`atType`), else the byte's own class. How the bytes are cut into rows has no effect on what they
do (R128 g; log 10). -/
def decodeWire (p : Config) (atType : Bool) (bytes : List Byte) : Decoded :=
  match decodeWirePair p bytes with
  | .ok i rest => .ok i rest
  | .rejected _ =>
    if atType then
      match decodeFrameType bytes with
      | .ok i rest => .ok i rest
      | .rejected _ => decodeWireByte p bytes
    else decodeWireByte p bytes

/-! ## Responses of DEC_BYTE (R63, R181) -/

/-- The codes of the reasons (R181). -/
def reasonCode : BadReason → Byte
  | .tooShort => 0x01
  | .badVersion => 0x02
  | .lenMismatch => 0x03
  | .crcMismatch => 0x04
  | .overflow => 0x05

/-- A reason by its code. -/
def reasonOf (b : Byte) : Option BadReason :=
  if b = 0x01 then some .tooShort
  else if b = 0x02 then some .badVersion
  else if b = 0x03 then some .lenMismatch
  else if b = 0x04 then some .crcMismatch
  else if b = 0x05 then some .overflow
  else none

/-- The row a reason's code stands in. -/
def reasonRow : BadReason → Instr
  | .tooShort => .tooShort
  | .badVersion => .badVersion
  | .lenMismatch => .lenMismatch
  | .crcMismatch => .crcMismatch
  | .overflow => .overflow

/-- The validated body as received (R63, R51): header, payload, CRC high byte first. -/
def frameBody (f : Frame) : List Byte :=
  [f.version, f.type, f.flags, f.seq, byteOf f.payload.length] ++ f.payload ++ beBytes f.crc16

/-- The response bytes of an event (R63): the kind byte, then the frame's body or the reason. -/
def eventBytes : Event → List Byte
  | .none => [0x00]
  | .frame f => 0x01 :: frameBody f
  | .bad r => [0x02, reasonCode r]

/-- The fields after the kind byte FRAME: version, type, flags, seq, L, then L payload bytes and the CRC (R63). -/
def decodeFrameEvent (p : Config) : List Byte → Decoded
  | version :: type :: flags :: seq :: len :: rest =>
    match rest.drop len.toNat with
    | hi :: lo :: rest' =>
      let f : Frame := ⟨version, type, flags, seq, rest.take len.toNat, join16 hi lo⟩
      if f.wellFormed p then .ok (.evFrame f) rest' else .rejected .badEvent
    | _ => .rejected .noBytes
  | _ => .rejected .noBytes

/-- One EVENT_KIND row with what follows it (R63). -/
def decodeEvent (p : Config) : List Byte → Decoded
  | [] => .rejected .noBytes
  | kind :: bytes =>
    if kind = 0x00 then .ok .evNone bytes
    else if kind = 0x01 then decodeFrameEvent p bytes
    else if kind = 0x02 then
      match bytes with
      | [] => .rejected .noBytes
      | c :: rest =>
        match reasonOf c with
        | some r => .ok (.evBad r) rest
        | none => .rejected .notInTable
    else .rejected .notInTable

/-- One BAD_REASON row (R181). -/
def decodeReason : List Byte → Decoded
  | [] => .rejected .noBytes
  | c :: rest =>
    match reasonOf c with
    | some r => .ok (reasonRow r) rest
    | none => .rejected .notInTable

/-! ## All row kinds, and the encoder -/

/-- The instruction at the front of bytes read as rows of one kind. -/
def decode (p : Config) : RowKind → List Byte → Decoded
  | .op => decodeOp p
  | .wireByte => decodeWireByte p
  | .wirePair => decodeWirePair p
  | .frameType => decodeFrameType
  | .eventKind => decodeEvent p
  | .badReason => decodeReason

/-- The kind of row an instruction belongs to (R62). -/
def Instr.kind : Instr → RowKind
  | .crcInit => .op
  | .crcByte _ => .op
  | .crcRead => .op
  | .stuff _ => .op
  | .encFrame _ _ _ _ => .op
  | .decReset => .op
  | .decByte _ => .op
  | .rbInit _ => .op
  | .rbAdd _ _ => .op
  | .rbFind _ => .op
  | .rbAdv _ => .op
  | .rbCount _ => .op
  | .rbRstd _ => .op
  | .rbRead _ => .op
  | .sof => .wireByte
  | .eof => .wireByte
  | .esc => .wireByte
  | .data _ => .wireByte
  | .escPair7E => .wirePair
  | .escPair7F => .wirePair
  | .escPair7D => .wirePair
  | .typeStatus => .frameType
  | .typeTime => .frameType
  | .typeCall => .frameType
  | .typeNotify => .frameType
  | .typePing => .frameType
  | .typeAck => .frameType
  | .evNone => .eventKind
  | .evFrame _ => .eventKind
  | .evBad _ => .eventKind
  | .tooShort => .badReason
  | .badVersion => .badReason
  | .lenMismatch => .badReason
  | .crcMismatch => .badReason
  | .overflow => .badReason

/-- The bytes of an instruction, in its row's own kind (R54, R55, R61, R62, R63, R150, R181). -/
def encode (p : Config) : Instr → List Byte
  | .crcInit => [0x00]
  | .crcByte b => [0x01, b]
  | .crcRead => [0x02]
  | .stuff b => [0x10, b]
  | .encFrame type flags seq payload => [0x11, type, flags, seq, byteOf payload.length] ++ payload
  | .decReset => [0x20]
  | .decByte b => [0x21, b]
  | .rbInit k => [0x30 ||| classBit k]
  | .rbAdd k content => (0x31 ||| classBit k) :: content
  | .rbFind k => [0x32 ||| classBit k]
  | .rbAdv k => [0x33 ||| classBit k]
  | .rbCount k => [0x34 ||| classBit k]
  | .rbRstd k => [0x35 ||| classBit k]
  | .rbRead k => [0x36 ||| classBit k]
  | .sof => [p.sof]
  | .eof => [p.eof]
  | .esc => [p.esc]
  | .data b => [b]
  | .escPair7E => [p.esc, p.sof ^^^ p.mask]
  | .escPair7F => [p.esc, p.eof ^^^ p.mask]
  | .escPair7D => [p.esc, p.esc ^^^ p.mask]
  | .typeStatus => [0x01]
  | .typeTime => [0x02]
  | .typeCall => [0x03]
  | .typeNotify => [0x04]
  | .typePing => [0x05]
  | .typeAck => [0x10]
  | .evNone => eventBytes .none
  | .evFrame f => eventBytes (.frame f)
  | .evBad r => eventBytes (.bad r)
  | .tooShort => [reasonCode .tooShort]
  | .badVersion => [reasonCode .badVersion]
  | .lenMismatch => [reasonCode .lenMismatch]
  | .crcMismatch => [reasonCode .crcMismatch]
  | .overflow => [reasonCode .overflow]

/-! ## The table's own numbering of bits -/

/-- The first `n` bytes of a number, bits 7..0 first. -/
def littleBytes : Nat → Nat → List Byte
  | 0, _ => []
  | n + 1, w => byteOf w :: littleBytes n (w / 256)

/-- The zero bytes a request may need above the table's bits: the longest is RB_ADD's content (R62). -/
def operandZeros : List Byte := List.replicate Config.default.contentBytes 0x00

/-- The row kind and the bytes of a table word. The table gives several rows of different kinds the SAME bits, so the
word alone does not say the kind: an assigned operation code is a request; 16 bits are a WIRE_PAIR, written first wire
byte first; an R150 value is a TYPE byte; anything else is a received byte (log 13). -/
def tableRow (nbits w : Nat) : RowKind × List Byte :=
  if nbits = 16 then (.wirePair, [byteOf (w / 256), byteOf w])
  else
    let bytes := littleBytes (nbits / 8) w
    match lookupOp (byteOf w) with
    | some _ => (.op, bytes ++ operandZeros)
    | none =>
      match typeOf (byteOf w) with
      | some _ => (.frameType, bytes)
      | none => (.wireByte, bytes)

/-- The instruction the decoder reads from a table word, rest of the bytes dropped. -/
def decodeTableWord (nbits w : Nat) : Option Instr :=
  match decode Config.default (tableRow nbits w).1 (tableRow nbits w).2 with
  | .ok i _ => some i
  | .rejected _ => none

end Sys2Proof
end

