-- ==== Sys2Proof/Machine/State.lean ====
section
/-! DEFINITION. The state of the block: exactly what 10_state R10 lists, and two fields of the model's own, the owner's
pending input and the responses given so far (R25 c, R25 d: no state of the block; log 1, log 2). -/

namespace Sys2Proof.Machine

/-- A slot memory (R30): (address, byte) pairs in one canonical form, addresses strictly rising and no entry equal to
what an unlisted address reads as. Byte `i` of slot `j` is at `19 * j + i` (log 14). -/
abbrev Memory := List Host.Cell

/-- What an unlisted byte of a slot memory reads as: its reset value (R26; log 15). -/
def Memory.unlisted : Byte := 0x00

/-- Every address of the list is above `a`, the addresses rise strictly, and no entry is what an unlisted address
reads as. -/
def Memory.wfAbove : Nat → Memory → Bool
  | _, [] => true
  | a, (b, v) :: m => decide (a < b) && v != Memory.unlisted && Memory.wfAbove b m

/-- The canonical form. -/
def Memory.wf : Memory → Bool
  | [] => true
  | (a, v) :: m => v != Memory.unlisted && Memory.wfAbove a m

/-- What the owner can do to the block (R215): put requests on the operation port (R60), feed received bytes (each as
one DEC_BYTE, R30), apply reset (R200). The owner issues whole operations, so a chunk of requests holds whole requests;
received bytes may be grouped in any way (R128 g). -/
inductive Input where
  | request (bytes : List Byte)
  | wire (bytes : List Byte)
  | reset
deriving DecidableEq, Repr

/-- The whole state (R10). `dec.len` is the length of `decBuf` (R16: a list of length `dec.len`; log 4). -/
structure State where
  /-- `crc` (R13). -/
  crc : Word16
  /-- `dec.in_frame` (R14). -/
  decInFrame : Bool
  /-- `dec.escaping` (R15). -/
  decEscaping : Bool
  /-- `dec.buf[0 .. dec.len-1]`, in arrival order (R16). -/
  decBuf : List Byte
  /-- `rb[NORMAL].slot` (R18). -/
  slotNormal : Memory
  /-- `rb[NORMAL].w` (R19). -/
  wNormal : BitVec 3
  /-- `rb[NORMAL].d` (R20). -/
  dNormal : BitVec 3
  /-- `rb[EMERGENCY].slot` (R18). -/
  slotEmergency : Memory
  /-- `rb[EMERGENCY].w` (R19). -/
  wEmergency : BitVec 2
  /-- `rb[EMERGENCY].d` (R20). -/
  dEmergency : BitVec 2
  /-- What the owner has issued and the block has not yet taken, in order (R6, R7; log 1). -/
  input : List Input
  /-- The responses given so far, in order, one per operation (R6, R63, R214; log 2). -/
  output : List (List Byte)
deriving DecidableEq, Repr

/-- There is no fault: "no operation of the block faults, traps, hangs or refuses" (R180), and the block has no fault
state (R216). The type has no constructor, so no step can answer one: safe. -/
inductive Fault
deriving DecidableEq, Repr

/-- Why a step has no meaning. -/
inductive Refusal where
  /-- An instruction the model does not cover; raised by an arm of exec only, and no arm raises it. Safe: the run
  stops. -/
  | notModelled (mnemonic : String)
  /-- Raised by the step on a request with fewer operand bytes than its code takes, which "has no meaning in this spec"
  (R215, U21). Safe: the run stops. -/
  | truncatedRequest (op : Byte)
  /-- Raised by a byte received in frame that would append to, or parse, a buffer of more than `P_MAX_ACC` bytes, "the
  one pattern no rule covers" (R201, U3: refuse). No run from reset meets it. Safe: the run stops. -/
  | accLenOutOfRange
deriving DecidableEq, Repr

/-- The state after reset (R26, R200) of the block with these parameters. -/
def State.resetAt (p : Config) : State where
  crc := p.init
  decInFrame := false
  decEscaping := false
  decBuf := []
  slotNormal := []
  wNormal := 0
  dNormal := 0
  slotEmergency := []
  wEmergency := 0
  dEmergency := 0
  input := []
  output := []

/-- The state after reset, parameters at their defaults. -/
def State.reset : State := State.resetAt Config.default

end Sys2Proof.Machine
end

