-- ==== Sys2Proof/Machine/Ops.lean ====
section
/-! DEFINITION. The shared operations over the slot memories, the cursors, the decoder and the responses, and the two
ends of a frame: taking a bad-frame report (60_exceptions R185) and delivering a frame (42_stream_decoder R108, R125).
What depends on a parameter of R4 takes the configuration `p`. -/

namespace Sys2Proof.Machine

/-! ## Slot memories (20_memory R30, R32, R36) -/

/-- One byte. The addresses rise, so a search stops at the first address above the one asked for. -/
def Memory.read : Memory → Nat → Byte
  | [], _ => Memory.unlisted
  | (b, v) :: m, a => if a < b then Memory.unlisted else if a = b then v else Memory.read m a

/-- A byte in front of a memory, kept out of the list when it is what an unlisted address reads as. -/
def Memory.put (a : Nat) (v : Byte) (m : Memory) : Memory :=
  if v = Memory.unlisted then m else (a, v) :: m

/-- Write one byte, keeping the canonical form. -/
def Memory.write : Memory → Nat → Byte → Memory
  | [], a, v => Memory.put a v []
  | (b, u) :: m, a, v =>
    if a < b then Memory.put a v ((b, u) :: m)
    else if a = b then Memory.put a v (m.dropWhile (fun c => decide (c.1 ≤ a)))
    else (b, u) :: Memory.write m a v

/-- Write bytes at rising addresses from `a`. -/
def Memory.writeBytes : Memory → Nat → List Byte → Memory
  | m, _, [] => m
  | m, a, v :: vs => Memory.writeBytes (Memory.write m a v) (a + 1) vs

/-- Every byte `0x00` (R132). -/
def Memory.zeroed : Memory := []

/-- Where byte `i` of slot `j` stands: `rb[k].slot[j][i]` (R5, R30; log 14). -/
def slotAddr (p : Config) (j i : Nat) : Nat := p.slotBytes * j + i

/-- `N_k` (R5, R130). -/
def capacity (p : Config) : MsgClass → Nat
  | .normal => p.nNormal
  | .emergency => p.nEmergency

/-! ## The registers of one ring buffer (10_state R18 to R20) -/

/-- `rb[k].slot`. -/
def State.slots (s : State) : MsgClass → Memory
  | .normal => s.slotNormal
  | .emergency => s.slotEmergency

/-- `rb[k].w` as a number. -/
def State.wCursor (s : State) : MsgClass → Nat
  | .normal => s.wNormal.toNat
  | .emergency => s.wEmergency.toNat

/-- `rb[k].d` as a number. -/
def State.dCursor (s : State) : MsgClass → Nat
  | .normal => s.dNormal.toNat
  | .emergency => s.dEmergency.toNat

/-- `rb[k].slot <- m`. -/
def State.setSlots (s : State) (k : MsgClass) (m : Memory) : State :=
  match k with
  | .normal => { s with slotNormal := m }
  | .emergency => { s with slotEmergency := m }

/-- `rb[k].w <- n`. -/
def State.setW (s : State) (k : MsgClass) (n : Nat) : State :=
  match k with
  | .normal => { s with wNormal := BitVec.ofNat 3 n }
  | .emergency => { s with wEmergency := BitVec.ofNat 2 n }

/-- `rb[k].d <- n`. -/
def State.setD (s : State) (k : MsgClass) (n : Nat) : State :=
  match k with
  | .normal => { s with dNormal := BitVec.ofNat 3 n }
  | .emergency => { s with dEmergency := BitVec.ofNat 2 n }

/-- `clamp_k(c)` (R131): an out-of-range cursor is used as 0. -/
def clamp (p : Config) (k : MsgClass) (c : Nat) : Nat := if c < capacity p k then c else 0

/-- The cursor after `c`, wrapping (R67, R141). -/
def nextCursor (p : Config) (k : MsgClass) (c : Nat) : Nat := (c + 1) % capacity p k

/-- `rb[k].slot[j]` whole, byte 0 first (R138). -/
def State.slotBytes (p : Config) (s : State) (k : MsgClass) (j : Nat) : List Byte :=
  (List.range p.slotBytes).map (fun i => (s.slots k).read (slotAddr p j i))

/-- Whether `rb[k].slot[j][0]` is nonzero (R18). -/
def State.slotEnabled (p : Config) (s : State) (k : MsgClass) (j : Nat) : Bool :=
  isEnabled ((s.slots k).read (slotAddr p j 0))

/-! ## Responses (30_encoding R63) -/

/-- The response of an operation, given whole (R6). -/
def respond (r : List Byte) (s : State) : State := { s with output := s.output ++ [r] }

/-- The empty response. -/
def respondEmpty (s : State) : State := respond [] s

/-- The event NONE (R63, R102). -/
def noEvent (s : State) : State := respond (eventBytes .none) s

/-! ## The ends of a frame -/

/-- Out of frame, not escaping, buffer cleared (R101, R108, R110, R185; D12). -/
def leaveFrame (s : State) : State := { s with decInFrame := false, decEscaping := false, decBuf := [] }

/-- In frame with an empty buffer (R104). -/
def enterFrame (s : State) : State := { s with decInFrame := true, decEscaping := false, decBuf := [] }

/-- `raise BadFrame(reason)` (R5, R181, R185): the response carries BAD(reason), the accumulated bytes are discarded and
the decoder goes out of frame. Nothing is saved and control goes nowhere; there is no return (R186). -/
def takeReport (r : BadReason) (s : State) : State := respond (eventBytes (.bad r)) (leaveFrame s)

/-- `emit FRAME(...)` (R5, R108, R125): the response carries the frame, and the decoder goes out of frame. -/
def deliverFrame (f : Frame) (s : State) : State := respond (eventBytes (.frame f)) (leaveFrame s)

/-! ## Reset and sequencing -/

/-- The outcome type of every meaning. -/
abbrev Result := Host.Outcome State Fault Refusal

/-- One operation after another (R41): the second sees every effect of the first. -/
def andThen (r : Result) (f : State → Result) : Result :=
  match r with
  | .next s => f s
  | .fault e => .fault e
  | .refused e => .refused e

/-- Reset applied between operations (R200, R215): every piece of the block's state takes its value of R26. What the
owner still holds to issue, and what it has been answered, are the owner's and stay (log 20). -/
def applyReset (p : Config) (s : State) : State := { State.resetAt p with input := s.input, output := s.output }

/-- An unassigned operation code (R64, R190): no state changes, the response is the byte `ill`. -/
def answerIllegal (s : State) : State := respond [illByte] s

end Sys2Proof.Machine
end

