-- ==== Sys2Proof/Machine/Operands.lean ====
section
/-! DEFINITION. How operands become what an operation works on: the truncated payload (41_frame_encoder R91) and the
slot image (43_ring_buffer R133). -/

namespace Sys2Proof.Machine

/-- The first `P_MAX_PAYLOAD` bytes of a payload; the rest is dropped without notice (R91). -/
def truncatePayload (p : Config) (payload : List Byte) : List Byte := payload.take p.maxPayload

/-- The bytes RB_ADD writes (R133, R57): the enabled flag, zero padding, the content bytes. A term whose content
is shorter, which no request carries (R62), is filled with `0x00` (log 22). -/
def slotImage (p : Config) (content : List Byte) : List Byte :=
  [p.enValue, 0x00] ++ (List.range p.contentBytes).map (fun i => content.getD i 0x00)

end Sys2Proof.Machine
end

