-- ==== Sys2Proof/Machine/Crc.lean ====
section
/-! DEFINITION. The CRC generator (40_crc16): the register step, the pure function `crc16`, and CRC_INIT, CRC_BYTE,
CRC_READ. -/

namespace Sys2Proof.Machine

/-- One left shift: XOR in the polynomial when the bit shifted out is 1 (R82). -/
def crcShift (p : Config) (c : Word16) : Word16 := if c.msb then (c <<< 1) ^^^ p.poly else c <<< 1

/-- `n` shifts. -/
def crcShifts (p : Config) : Nat → Word16 → Word16
  | 0, c => c
  | n + 1, c => crcShifts p n (crcShift p c)

/-- The body of R82: the byte goes into bits 15:8, then eight shifts. The algorithm is the standard one for the
parameters the source gives (R80, G1; log 9); the byte as `crcIn` takes it (log 31). -/
def crcStep (p : Config) (c : Word16) (b : Byte) : Word16 :=
  crcShifts p 8 (c ^^^ ((crcIn p b).setWidth 16 <<< 8))

/-- `crc16(s)` (R84): pure, in particular independent of the register `crc`. DESIGN CHOICE: at other parameters it takes
`P_REFIN` through the step and ignores `P_REFOUT` and `P_XOROUT`, which R84 does not use. So do frame CRCs, and the
equality R66 gives with the CRC_READ response is then lost (log 31). -/
def crc16 (p : Config) (bytes : List Byte) : Word16 := bytes.foldl (crcStep p) p.init

/-- CRC_INIT (R81). -/
def execCrcInitAt (p : Config) (s : State) : Result := .next (respondEmpty { s with crc := p.init })

@[inherit_doc execCrcInitAt] def execCrcInit (s : State) : Result := execCrcInitAt Config.default s

/-- CRC_BYTE b (R82). -/
def execCrcByteAt (p : Config) (b : Byte) (s : State) : Result :=
  .next (respondEmpty { s with crc := crcStep p s.crc b })

@[inherit_doc execCrcByteAt] def execCrcByte (b : Byte) (s : State) : Result := execCrcByteAt Config.default b s

/-- CRC_READ (R83): high byte, then low byte; the register is not written. For a reflected or XORed output see `crcOut`
(log 31). -/
def execCrcReadAt (p : Config) (s : State) : Result := .next (respond (beBytes (crcOut p s.crc)) s)

@[inherit_doc execCrcReadAt] def execCrcRead (s : State) : Result := execCrcReadAt Config.default s

end Sys2Proof.Machine
end

