-- ==== Sys2Proof/Machine/Encoder.lean ====
section
/-! DEFINITION. The frame encoder (41_frame_encoder): stateless (R90). -/

namespace Sys2Proof.Machine

/-- `stuff(b)` (R92, R54). -/
def stuff (p : Config) (b : Byte) : List Byte := if isMarker p b then [p.esc, b ^^^ p.mask] else [b]

/-- The bytes the CRC covers (R53, R93): header and truncated payload; LEN is the truncated length (R91). -/
def coveredBytes (p : Config) (type flags seq : Byte) (payload : List Byte) : List Byte :=
  [p.ver, type, flags, seq, byteOf (truncatePayload p payload).length] ++ truncatePayload p payload

/-- The unescaped body (R51, R93): the covered bytes, then their CRC big-endian. -/
def encodeBody (p : Config) (type flags seq : Byte) (payload : List Byte) : List Byte :=
  coveredBytes p type flags seq payload ++ beBytes (crc16 p (coveredBytes p type flags seq payload))

/-- The frame on the wire (R50, R93): SOF, every body byte stuffed, EOF. -/
def encodeFrame (p : Config) (type flags seq : Byte) (payload : List Byte) : List Byte :=
  [p.sof] ++ (encodeBody p type flags seq payload).flatMap (stuff p) ++ [p.eof]

/-- STUFF b (R92). -/
def execStuffAt (p : Config) (b : Byte) (s : State) : Result := .next (respond (stuff p b) s)

@[inherit_doc execStuffAt] def execStuff (b : Byte) (s : State) : Result := execStuffAt Config.default b s

/-- ENC_FRAME type, flags, seq, payload (R93). -/
def execEncFrameAt (p : Config) (type flags seq : Byte) (payload : List Byte) (s : State) : Result :=
  .next (respond (encodeFrame p type flags seq payload) s)

@[inherit_doc execEncFrameAt] def execEncFrame (type flags seq : Byte) (payload : List Byte) (s : State) : Result :=
  execEncFrameAt Config.default type flags seq payload s

end Sys2Proof.Machine
end

