-- ==== Sys2Proof/Machine/Decoder.lean ====
section
/-! DEFINITION. The stream decoder (42_stream_decoder): the body parse, the append with its overflow abort, the six
cases of DEC_BYTE in priority order, and DEC_RESET. -/

namespace Sys2Proof.Machine

/-- Byte `i` of a body. The checks below read only indexes the length allows. -/
def bodyByte (body : List Byte) (i : Nat) : Byte := body.getD i 0x00

/-- The received CRC: the last two bytes, big-endian (R124, R67). -/
def receivedCrc (body : List Byte) : Word16 :=
  join16 (bodyByte body (body.length - 2)) (bodyByte body (body.length - 1))

/-- The bytes the CRC covers: all but the trailing two (R124). -/
def coveredPart (body : List Byte) : List Byte := body.take (body.length - 2)

/-- `parse_body(s)` (R120 to R126): four checks in order, the first failure is the reason. -/
def parseBody (p : Config) (body : List Byte) : Except BadReason Frame :=
  if body.length < p.minBody then .error .tooShort
  else if bodyByte body 0 ≠ p.ver then .error .badVersion
  else if (bodyByte body 4).toNat ≠ body.length - p.minBody then .error .lenMismatch
  else if crc16 p (coveredPart body) ≠ receivedCrc body then .error .crcMismatch
  else .ok
    { version := bodyByte body 0
      type := bodyByte body 1
      flags := bodyByte body 2
      seq := bodyByte body 3
      payload := (coveredPart body).drop p.hdr
      crc16 := receivedCrc body }

/-- `append(v)` (R110): the 257th byte aborts the frame with OVERFLOW. A longer buffer, which no rule covers (R201, U3),
is refused. -/
def appendByte (p : Config) (v : Byte) (s : State) : Result :=
  if s.decBuf.length < p.maxAcc then .next (noEvent { s with decBuf := s.decBuf ++ [v] })
  else if s.decBuf.length = p.maxAcc then .next (takeReport .overflow s)
  else .refused .accLenOutOfRange

/-- Case 1a (R103): out of frame, not the start marker. -/
def outOther (s : State) : Result := .next (noEvent s)

/-- Case 1b (R104): out of frame, the start marker. -/
def outSof (s : State) : Result := .next (noEvent (enterFrame s))

/-- Case 2 (R105): in frame and escaping; the byte's value is not examined. -/
def inEscaping (p : Config) (b : Byte) (s : State) : Result :=
  appendByte p (b ^^^ p.mask) { s with decEscaping := false }

/-- Case 3 (R106): in frame, the escape marker; no overflow check. -/
def inEsc (s : State) : Result := .next (noEvent { s with decEscaping := true })

/-- Case 4 (R107): in frame, the start marker: the partial frame is dropped without a report (D8). -/
def inSof (s : State) : Result := .next (noEvent { s with decBuf := [] })

/-- Case 5 (R108): in frame, the end marker: parse, then out of frame whatever the parse says. -/
def inEof (p : Config) (s : State) : Result :=
  if s.decBuf.length ≤ p.maxAcc then
    match parseBody p s.decBuf with
    | .ok f => .next (deliverFrame f s)
    | .error r => .next (takeReport r s)
  else .refused .accLenOutOfRange

/-- Case 6 (R109): in frame, any other byte. -/
def inData (p : Config) (b : Byte) (s : State) : Result := appendByte p b s

/-- The decoder consuming one byte (R102): the first case whose condition holds. -/
def consume (p : Config) (b : Byte) (s : State) : Result :=
  if s.decInFrame = false then
    if b = p.sof then outSof s else outOther s
  else if s.decEscaping = true then inEscaping p b s
  else if b = p.esc then inEsc s
  else if b = p.sof then inSof s
  else if b = p.eof then inEof p s
  else inData p b s

/-- DEC_RESET (R101). -/
def execDecReset (s : State) : Result := .next (respondEmpty (leaveFrame s))

/-- DEC_BYTE b (R102). -/
def execDecByteAt (p : Config) (b : Byte) (s : State) : Result := consume p b s

@[inherit_doc execDecByteAt] def execDecByte (b : Byte) (s : State) : Result := execDecByteAt Config.default b s

end Sys2Proof.Machine
end

