-- ==== Sys2Proof/Machine/Report.lean ====
section
/-! DEFINITION. The rows that are the decoder's answers (30_encoding R63; 60_exceptions R181, R185): each is the act of
giving that answer, the same shared operation DEC_BYTE ends in. The owner cannot issue them and no input decodes to
them (log 12). -/

namespace Sys2Proof.Machine

/-- EV_NONE (R63): no event. -/
def execEvNone (s : State) : Result := .next (noEvent s)

/-- EV_FRAME (R63, R108, R125): `emit FRAME(...)`. -/
def execEvFrame (f : Frame) (s : State) : Result := .next (deliverFrame f s)

/-- EV_BAD (R63, R181, R185): `raise BadFrame(reason)`. -/
def execEvBad (r : BadReason) (s : State) : Result := .next (takeReport r s)

/-- TOO_SHORT (R121, R181, R185). -/
def execTooShort (s : State) : Result := .next (takeReport .tooShort s)

/-- BAD_VERSION (R122, R181, R185). -/
def execBadVersion (s : State) : Result := .next (takeReport .badVersion s)

/-- LEN_MISMATCH (R123, R181, R185). -/
def execLenMismatch (s : State) : Result := .next (takeReport .lenMismatch s)

/-- CRC_MISMATCH (R124, R181, R185). -/
def execCrcMismatch (s : State) : Result := .next (takeReport .crcMismatch s)

/-- OVERFLOW (R110, R181, R185). -/
def execOverflow (s : State) : Result := .next (takeReport .overflow s)

end Sys2Proof.Machine
end

