-- ==== Sys2Proof/Machine/Ring.lean ====
section
/-! DEFINITION. The two message ring buffers (43_ring_buffer): seven operations, each for class `k`. -/

namespace Sys2Proof.Machine

/-- RB_INIT k (R132). -/
def execRbInit (k : MsgClass) (s : State) : Result :=
  .next (respondEmpty (((s.setSlots k Memory.zeroed).setW k 0).setD k 0))

/-- RB_ADD k, content (R133): the whole slot at the clamped write cursor is written, then the cursor advances. The
display cursor is neither read nor written. -/
def execRbAddAt (p : Config) (k : MsgClass) (content : List Byte) (s : State) : Result :=
  let w0 := clamp p k (s.wCursor k)
  .next (respondEmpty
    ((s.setSlots k ((s.slots k).writeBytes (slotAddr p w0 0) (slotImage p content))).setW k (nextCursor p k w0)))

@[inherit_doc execRbAddAt] def execRbAdd (k : MsgClass) (content : List Byte) (s : State) : Result :=
  execRbAddAt Config.default k content s

/-- The slots in the order RB_FIND scans them: from `d0`, each of the `N_k` once (R134). -/
def scanOrder (p : Config) (k : MsgClass) (d0 : Nat) : List Nat :=
  (List.range (capacity p k)).map (fun i => (d0 + i) % capacity p k)

/-- The first enabled slot of the scan (R134). -/
def findSlot (p : Config) (k : MsgClass) (d0 : Nat) (s : State) : Option Nat :=
  (scanOrder p k d0).find? (fun j => s.slotEnabled p k j)

/-- RB_FIND k (R134): the display cursor moves onto the slot found, else stays (clamped). -/
def execRbFindAt (p : Config) (k : MsgClass) (s : State) : Result :=
  let d0 := clamp p k (s.dCursor k)
  match findSlot p k d0 s with
  | some j => .next (respond [foundByte true, byteOf j] (s.setD k j))
  | none => .next (respond [foundByte false, byteOf d0] (s.setD k d0))

@[inherit_doc execRbFindAt] def execRbFind (k : MsgClass) (s : State) : Result := execRbFindAt Config.default k s

/-- RB_ADV k (R135). -/
def execRbAdvAt (p : Config) (k : MsgClass) (s : State) : Result :=
  .next (respondEmpty (s.setD k (nextCursor p k (clamp p k (s.dCursor k)))))

@[inherit_doc execRbAdvAt] def execRbAdv (k : MsgClass) (s : State) : Result := execRbAdvAt Config.default k s

/-- The number of enabled slots (R136). -/
def enabledCount (p : Config) (k : MsgClass) (s : State) : Nat :=
  ((List.range (capacity p k)).filter (fun j => s.slotEnabled p k j)).length

/-- RB_COUNT k (R136). -/
def execRbCountAt (p : Config) (k : MsgClass) (s : State) : Result := .next (respond [byteOf (enabledCount p k s)] s)

@[inherit_doc execRbCountAt] def execRbCount (k : MsgClass) (s : State) : Result := execRbCountAt Config.default k s

/-- RB_RSTD k (R137). -/
def execRbRstd (k : MsgClass) (s : State) : Result := .next (respondEmpty (s.setD k 0))

/-- RB_READ k (R138): the cursor register itself is not rewritten. -/
def execRbReadAt (p : Config) (k : MsgClass) (s : State) : Result :=
  .next (respond (s.slotBytes p k (clamp p k (s.dCursor k))) s)

@[inherit_doc execRbReadAt] def execRbRead (k : MsgClass) (s : State) : Result := execRbReadAt Config.default k s

end Sys2Proof.Machine
end

