-- ==== Sys2Proof/Machine/Wire.lean ====
section
/-! DEFINITION. The rows that are received bytes (30_encoding R54, R55; 44_context_clients R150): each is the decoder
consuming the byte or bytes it stands for (20_memory R30: "received bytes arrive as DEC_BYTE operands"). Log 10,
log 11. -/

namespace Sys2Proof.Machine

/-- SOF (R55): R104 out of frame, R107 in frame, R105 escaping. -/
def execSofAt (p : Config) (s : State) : Result := consume p p.sof s

@[inherit_doc execSofAt] def execSof (s : State) : Result := execSofAt Config.default s

/-- EOF (R55): R103 out of frame, R108 in frame, R105 escaping. -/
def execEofAt (p : Config) (s : State) : Result := consume p p.eof s

@[inherit_doc execEofAt] def execEof (s : State) : Result := execEofAt Config.default s

/-- ESC (R55): R103 out of frame, R106 in frame, R105 escaping. -/
def execEscAt (p : Config) (s : State) : Result := consume p p.esc s

@[inherit_doc execEscAt] def execEsc (s : State) : Result := execEscAt Config.default s

/-- DATA b (R55): R103, R109, R105. -/
def execDataAt (p : Config) (b : Byte) (s : State) : Result := consume p b s

@[inherit_doc execDataAt] def execData (b : Byte) (s : State) : Result := execDataAt Config.default b s

/-- Two bytes of the stream in order, one event each. -/
def consumePair (p : Config) (b0 b1 : Byte) (s : State) : Result := andThen (consume p b0 s) (consume p b1)

/-- ESC_PAIR_7E (R54): the wire bytes 7D 5E. -/
def execEscPair7EAt (p : Config) (s : State) : Result := consumePair p p.esc (p.sof ^^^ p.mask) s

@[inherit_doc execEscPair7EAt] def execEscPair7E (s : State) : Result := execEscPair7EAt Config.default s

/-- ESC_PAIR_7F (R54): the wire bytes 7D 5F. -/
def execEscPair7FAt (p : Config) (s : State) : Result := consumePair p p.esc (p.eof ^^^ p.mask) s

@[inherit_doc execEscPair7FAt] def execEscPair7F (s : State) : Result := execEscPair7FAt Config.default s

/-- ESC_PAIR_7D (R54): the wire bytes 7D 5D. -/
def execEscPair7DAt (p : Config) (s : State) : Result := consumePair p p.esc (p.esc ^^^ p.mask) s

@[inherit_doc execEscPair7DAt] def execEscPair7D (s : State) : Result := execEscPair7DAt Config.default s

/-- TYPE_STATUS (R150): the byte 01, carried unchanged (R58). -/
def execTypeStatusAt (p : Config) (s : State) : Result := consume p 0x01 s

@[inherit_doc execTypeStatusAt] def execTypeStatus (s : State) : Result := execTypeStatusAt Config.default s

/-- TYPE_TIME (R150): the byte 02. -/
def execTypeTimeAt (p : Config) (s : State) : Result := consume p 0x02 s

@[inherit_doc execTypeTimeAt] def execTypeTime (s : State) : Result := execTypeTimeAt Config.default s

/-- TYPE_CALL (R150): the byte 03. -/
def execTypeCallAt (p : Config) (s : State) : Result := consume p 0x03 s

@[inherit_doc execTypeCallAt] def execTypeCall (s : State) : Result := execTypeCallAt Config.default s

/-- TYPE_NOTIFY (R150): the byte 04. -/
def execTypeNotifyAt (p : Config) (s : State) : Result := consume p 0x04 s

@[inherit_doc execTypeNotifyAt] def execTypeNotify (s : State) : Result := execTypeNotifyAt Config.default s

/-- TYPE_PING (R150): the byte 05. -/
def execTypePingAt (p : Config) (s : State) : Result := consume p 0x05 s

@[inherit_doc execTypePingAt] def execTypePing (s : State) : Result := execTypePingAt Config.default s

/-- TYPE_ACK (R150): the byte 10. -/
def execTypeAckAt (p : Config) (s : State) : Result := consume p 0x10 s

@[inherit_doc execTypeAckAt] def execTypeAck (s : State) : Result := execTypeAckAt Config.default s

end Sys2Proof.Machine
end

