-- ==== Sys2Proof/Machine/Dispatch.lean ====
section
/-! DEFINITION. The meaning of every instruction: one arm per constructor, each one call of its own meaning. -/

namespace Sys2Proof.Machine

def exec (i : Instr) (s : State) : Host.Outcome State Fault Refusal :=
  match i with
  | .crcInit => Sys2Proof.Machine.execCrcInit s
  | .crcByte b => Sys2Proof.Machine.execCrcByte b s
  | .crcRead => Sys2Proof.Machine.execCrcRead s
  | .stuff b => Sys2Proof.Machine.execStuff b s
  | .encFrame type flags seq payload => Sys2Proof.Machine.execEncFrame type flags seq payload s
  | .decReset => Sys2Proof.Machine.execDecReset s
  | .decByte b => Sys2Proof.Machine.execDecByte b s
  | .rbInit k => Sys2Proof.Machine.execRbInit k s
  | .rbAdd k content => Sys2Proof.Machine.execRbAdd k content s
  | .rbFind k => Sys2Proof.Machine.execRbFind k s
  | .rbAdv k => Sys2Proof.Machine.execRbAdv k s
  | .rbCount k => Sys2Proof.Machine.execRbCount k s
  | .rbRstd k => Sys2Proof.Machine.execRbRstd k s
  | .rbRead k => Sys2Proof.Machine.execRbRead k s
  | .sof => Sys2Proof.Machine.execSof s
  | .eof => Sys2Proof.Machine.execEof s
  | .esc => Sys2Proof.Machine.execEsc s
  | .data b => Sys2Proof.Machine.execData b s
  | .escPair7E => Sys2Proof.Machine.execEscPair7E s
  | .escPair7F => Sys2Proof.Machine.execEscPair7F s
  | .escPair7D => Sys2Proof.Machine.execEscPair7D s
  | .typeStatus => Sys2Proof.Machine.execTypeStatus s
  | .typeTime => Sys2Proof.Machine.execTypeTime s
  | .typeCall => Sys2Proof.Machine.execTypeCall s
  | .typeNotify => Sys2Proof.Machine.execTypeNotify s
  | .typePing => Sys2Proof.Machine.execTypePing s
  | .typeAck => Sys2Proof.Machine.execTypeAck s
  | .evNone => Sys2Proof.Machine.execEvNone s
  | .evFrame f => Sys2Proof.Machine.execEvFrame f s
  | .evBad r => Sys2Proof.Machine.execEvBad r s
  | .tooShort => Sys2Proof.Machine.execTooShort s
  | .badVersion => Sys2Proof.Machine.execBadVersion s
  | .lenMismatch => Sys2Proof.Machine.execLenMismatch s
  | .crcMismatch => Sys2Proof.Machine.execCrcMismatch s
  | .overflow => Sys2Proof.Machine.execOverflow s

end Sys2Proof.Machine
end

