-- ==== Sys2Proof/Machine/Fetch.lean ====
section
/-! DEFINITION. Taking the owner's next operation from what it has issued (00_scope R6, R7; 30_encoding R60 to R64;
70_reset_and_hazards R215). The block has no program counter and fetches nothing from memory (10_state R12). -/

namespace Sys2Proof.Machine

/-- What stands next in the input. -/
inductive Fetched where
  /-- An instruction, and the state with its bytes taken from the input. -/
  | run (i : Instr) (s : State)
  /-- No instruction: the state after what stands there (reset, an unassigned code, an empty chunk, nothing). -/
  | done (s : State)
  /-- A request that has no meaning. -/
  | stop (r : Refusal)
deriving DecidableEq, Repr

/-- The input with what is left of its first chunk in front. -/
def chunkLeft (mk : List Byte → Input) (rest : List Byte) (later : List Input) : List Input :=
  match rest with
  | [] => later
  | _ :: _ => mk rest :: later

/-- Whether the next received byte is a frame's TYPE byte: in frame, not escaping, one body byte so far (R51: body
index 1). -/
def State.atTypeByte (s : State) : Bool :=
  s.decInFrame && !s.decEscaping && s.decBuf.length == 1

/-- The next request of a chunk of requests. -/
def fetchRequest (p : Config) (bytes : List Byte) (later : List Input) (s : State) : Fetched :=
  match decodeOp p bytes with
  | .ok i rest => .run i { s with input := chunkLeft .request rest later }
  | .rejected (.unassigned _) => .done (answerIllegal { s with input := chunkLeft .request bytes.tail later })
  | .rejected (.truncated op) => .stop (.truncatedRequest op)
  | .rejected .noBytes => .done { s with input := later }
  | .rejected .notInTable => .done { s with input := later }
  | .rejected .badEvent => .done { s with input := later }

/-- The next row of a chunk of received bytes. -/
def fetchWire (p : Config) (bytes : List Byte) (later : List Input) (s : State) : Fetched :=
  match decodeWire p s.atTypeByte bytes with
  | .ok i rest => .run i { s with input := chunkLeft .wire rest later }
  | .rejected _ => .done { s with input := later }

/-- What the block takes next. With nothing issued it waits (R200); an empty chunk is nothing (log 24). -/
def fetch (p : Config) (s : State) : Fetched :=
  match s.input with
  | [] => .done s
  | .reset :: later => .done (applyReset p { s with input := later })
  | .request bytes :: later => fetchRequest p bytes later s
  | .wire bytes :: later => fetchWire p bytes later s

/-- The state with a table word issued next (log 3, log 13): a request on the operation port, or received bytes. A TYPE
value is a TYPE byte only at body index 1, so the decoder is set there: in frame, the version byte received. -/
def placeTableWord (nbits w : Nat) (s : State) : State :=
  match tableRow nbits w with
  | (.op, bytes) => { s with input := .request bytes :: s.input }
  | (.frameType, bytes) =>
    { s with decInFrame := true, decEscaping := false, decBuf := [Config.default.ver], input := .wire bytes :: s.input }
  | (.wireByte, bytes) => { s with input := .wire bytes :: s.input }
  | (.wirePair, bytes) => { s with input := .wire bytes :: s.input }
  | (.eventKind, _) => s
  | (.badReason, _) => s

end Sys2Proof.Machine
end

