-- ==== Sys2Proof/Machine/Step.lean ====
section
/-! DEFINITION. One step: the block takes what stands next in the owner's input and runs it whole (00_scope R6). -/

namespace Sys2Proof.Machine

/-- One step. -/
def step (s : State) : Host.Outcome State Fault Refusal :=
  match fetch Config.default s with
  | .run i t => exec i t
  | .done t => .next t
  | .stop r => .refused r

/-- The state with the instruction of a table word standing where `step` takes its next one (log 3). -/
def State.withFetchWord (s : State) (nbits w : Nat) : State := placeTableWord nbits w s

end Sys2Proof.Machine
end

