-- ==== Sys2Proof/Machine/Configured.lean ====
section
/-! DEFINITION. The block at any configuration: what R4 calls the parameters of the model, taken as an argument. The
machine handed to the host is this one at the defaults (Laws/Configured proves it; log 8). -/

namespace Sys2Proof.Machine

/-- The meaning of every instruction in the block with parameters `p`. -/
def execAt (p : Config) (i : Instr) (s : State) : Result :=
  match i with
  | .crcInit => execCrcInitAt p s
  | .crcByte b => execCrcByteAt p b s
  | .crcRead => execCrcReadAt p s
  | .stuff b => execStuffAt p b s
  | .encFrame type flags seq payload => execEncFrameAt p type flags seq payload s
  | .decReset => execDecReset s
  | .decByte b => execDecByteAt p b s
  | .rbInit k => execRbInit k s
  | .rbAdd k content => execRbAddAt p k content s
  | .rbFind k => execRbFindAt p k s
  | .rbAdv k => execRbAdvAt p k s
  | .rbCount k => execRbCountAt p k s
  | .rbRstd k => execRbRstd k s
  | .rbRead k => execRbReadAt p k s
  | .sof => execSofAt p s
  | .eof => execEofAt p s
  | .esc => execEscAt p s
  | .data b => execDataAt p b s
  | .escPair7E => execEscPair7EAt p s
  | .escPair7F => execEscPair7FAt p s
  | .escPair7D => execEscPair7DAt p s
  | .typeStatus => execTypeStatusAt p s
  | .typeTime => execTypeTimeAt p s
  | .typeCall => execTypeCallAt p s
  | .typeNotify => execTypeNotifyAt p s
  | .typePing => execTypePingAt p s
  | .typeAck => execTypeAckAt p s
  | .evNone => execEvNone s
  | .evFrame f => execEvFrame f s
  | .evBad r => execEvBad r s
  | .tooShort => execTooShort s
  | .badVersion => execBadVersion s
  | .lenMismatch => execLenMismatch s
  | .crcMismatch => execCrcMismatch s
  | .overflow => execOverflow s

/-- One step of the block with parameters `p`. -/
def stepAt (p : Config) (s : State) : Result :=
  match fetch p s with
  | .run i t => execAt p i t
  | .done t => .next t
  | .stop r => .refused r

/-- The block with parameters `p` as a machine: its step and its state after reset. -/
def blockAt (p : Config) : Host.Core :=
  { State := State
    Fault := Fault
    Refusal := Refusal
    step := stepAt p
    reset := State.resetAt p }

end Sys2Proof.Machine
end

