-- ==== Sys2Proof/Machine/Program.lean ====
section
/-! DEFINITION. Runs as lists of operations (70_reset_and_hazards R214), and the three pseudo-operations of the written
syntax with the response each has (30_encoding R66; log 32). -/

namespace Sys2Proof.Machine

/-! ## Runs -/

/-- A run: the instructions one after another, from a stated start state (R214). -/
def execAll : List Instr → State → Result
  | [], s => .next s
  | i :: is, s => andThen (exec i s) (execAll is)

/-- A run of the block with parameters `p`. -/
def execAllAt (p : Config) : List Instr → State → Result
  | [], s => .next s
  | i :: is, s => andThen (execAt p i s) (execAllAt p is)

/-! ## The expansions of the pseudo-operations (R66) -/

/-- `FEED s` (R66): one DEC_BYTE per byte. -/
def feed (bytes : List Byte) : List Instr := bytes.map Instr.decByte

/-- `CRC16 s` (R66). -/
def crcOf (bytes : List Byte) : List Instr := [.crcInit] ++ bytes.map Instr.crcByte ++ [.crcRead]

/-- `DECODE s` (R66). -/
def decodeStream (bytes : List Byte) : List Instr := .decReset :: feed bytes

/-- The three pseudo-operations, each over a byte sequence (R66). -/
inductive PseudoOp where
  | crc16 (bytes : List Byte)
  | feed (bytes : List Byte)
  | decode (bytes : List Byte)
deriving DecidableEq, Repr

/-- The real operations a pseudo-operation abbreviates. -/
def expandPseudo : PseudoOp → List Instr
  | .crc16 bytes => crcOf bytes
  | .feed bytes => feed bytes
  | .decode bytes => decodeStream bytes

/-! ## Their responses (R66) -/

/-- The event whose response (R63) these bytes are; none if they are no event's response. -/
def eventOf (p : Config) (response : List Byte) : Option Event :=
  match decodeEvent p response with
  | .ok .evNone [] => some .none
  | .ok (.evFrame f) [] => some (.frame f)
  | .ok (.evBad r) [] => some (.bad r)
  | .ok _ _ => none
  | .rejected _ => none

/-- An event of FEED's list: byte `i` gave it, and it is not NONE. -/
def indexedEvent (i : Nat) : Event → Option (Nat × Event)
  | .none => none
  | .frame f => some (i, .frame f)
  | .bad r => some (i, .bad r)

/-- FEED's response (R66): the non-NONE events among the responses to its DEC_BYTEs, in order, each with the index of
the byte that produced it, that of `s[0]` being 0. -/
def feedEvents (p : Config) (responses : List (List Byte)) : List (Nat × Event) :=
  responses.zipIdx.filterMap (fun x => (eventOf p x.1).bind (indexedEvent x.2))

/-- What a pseudo-operation answers as one: CRC16 two bytes, FEED and DECODE a list of events. -/
inductive PseudoResponse where
  | crc (bytes : List Byte)
  | events (list : List (Nat × Event))
deriving DecidableEq, Repr

/-- The response of a pseudo-operation, from those of its real operations in order: CRC16's is CRC_READ's, the last
(R66; it is `crc16(s)` where `P_REFOUT` is false and `P_XOROUT` 0, log 31). DEDUCED: DECODE's is its FEED's, the one
response before it, DEC_RESET's, being empty (log 32). -/
def pseudoResponse (p : Config) (responses : List (List Byte)) : PseudoOp → PseudoResponse
  | .crc16 _ => .crc (responses.getLastD [])
  | .feed _ => .events (feedEvents p responses)
  | .decode _ => .events (feedEvents p responses.tail)

/-- A pseudo-operation of the block with parameters `p`: its real operations in order, then the state they leave and its
response. -/
def runPseudoAt (p : Config) (o : PseudoOp) (s : State) : Host.Outcome (State × PseudoResponse) Fault Refusal :=
  match execAllAt p (expandPseudo o) s with
  | .next t => .next (t, pseudoResponse p (t.output.drop s.output.length) o)
  | .fault e => .fault e
  | .refused e => .refused e

@[inherit_doc runPseudoAt] def runPseudo (o : PseudoOp) (s : State) :
    Host.Outcome (State × PseudoResponse) Fault Refusal := runPseudoAt Config.default o s

end Sys2Proof.Machine
end

