-- ==== Sys2Proof/Safety.lean ====
section
/-! DEFINITION. What claims are stated in: the spec's part of the state, the invariants 10_state R17 and R21 give, the
units and what each may write (R22), and the responses that carry a frame. -/

namespace Sys2Proof.Machine

/-- The state of R10 "and nothing else": the model's own two fields blanked. -/
def State.block (s : State) : State := { s with input := [], output := [] }

/-- `dec.len <= P_MAX_ACC` (R17 c). -/
def State.AccOk (p : Config) (s : State) : Prop := s.decBuf.length ≤ p.maxAcc

/-- The decoder invariants (R17). -/
structure State.DecInv (p : Config) (s : State) : Prop where
  /-- R17 a. -/
  escaping_in_frame : s.decEscaping = true → s.decInFrame = true
  /-- R17 b. -/
  out_of_frame : s.decInFrame = false → s.decBuf = [] ∧ s.decEscaping = false
  /-- R17 c. -/
  acc_ok : s.AccOk p

/-- Every listed address of a slot memory exists (R32). -/
def Memory.inRange (p : Config) (k : MsgClass) (m : Memory) : Prop :=
  ∀ c ∈ m, c.1 < p.slotBytes * capacity p k

/-- A slot is fully empty, or enabled with zero padding as RB_ADD writes it (R21 b, R133). -/
def State.SlotOk (p : Config) (s : State) (k : MsgClass) (j : Nat) : Prop :=
  (∀ i, i < p.slotBytes → (s.slots k).read (slotAddr p j i) = 0x00) ∨
  ((s.slots k).read (slotAddr p j 0) = p.enValue ∧ (s.slots k).read (slotAddr p j 1) = 0x00)

/-- The invariants of one ring buffer (R21 a, b) and the canonical form of its memory. -/
structure State.RingInv (p : Config) (s : State) (k : MsgClass) : Prop where
  mem_wf : (s.slots k).wf = true
  mem_range : (s.slots k).inRange p k
  w_lt : s.wCursor k < capacity p k
  d_lt : s.dCursor k < capacity p k
  slot_ok : ∀ j, j < capacity p k → s.SlotOk p k j

/-- The invariants of the whole block (R17, R21). -/
structure State.Inv (p : Config) (s : State) : Prop where
  dec : s.DecInv p
  ring : ∀ k, s.RingInv p k

/-- The units of the block (R1): they share no state (R46). -/
inductive BlockUnit where
  | crcGenerator
  | encoder
  | decoder
  | ring (k : MsgClass)
deriving DecidableEq, Repr

end Sys2Proof.Machine

namespace Sys2Proof

open Sys2Proof.Machine (BlockUnit)

/-- The unit an instruction acts on (R22, R60). -/
def Instr.unit : Instr → BlockUnit
  | .crcInit => .crcGenerator
  | .crcByte _ => .crcGenerator
  | .crcRead => .crcGenerator
  | .stuff _ => .encoder
  | .encFrame _ _ _ _ => .encoder
  | .decReset => .decoder
  | .decByte _ => .decoder
  | .rbInit k => .ring k
  | .rbAdd k _ => .ring k
  | .rbFind k => .ring k
  | .rbAdv k => .ring k
  | .rbCount k => .ring k
  | .rbRstd k => .ring k
  | .rbRead k => .ring k
  | .sof => .decoder
  | .eof => .decoder
  | .esc => .decoder
  | .data _ => .decoder
  | .escPair7E => .decoder
  | .escPair7F => .decoder
  | .escPair7D => .decoder
  | .typeStatus => .decoder
  | .typeTime => .decoder
  | .typeCall => .decoder
  | .typeNotify => .decoder
  | .typePing => .decoder
  | .typeAck => .decoder
  | .evNone => .decoder
  | .evFrame _ => .decoder
  | .evBad _ => .decoder
  | .tooShort => .decoder
  | .badVersion => .decoder
  | .lenMismatch => .decoder
  | .crcMismatch => .decoder
  | .overflow => .decoder

end Sys2Proof

namespace Sys2Proof.Machine

/-- The two states agree on everything one unit holds (R10, R22). The encoder holds nothing (R90). -/
def State.SameUnit (s t : State) : BlockUnit → Prop
  | .crcGenerator => s.crc = t.crc
  | .encoder => True
  | .decoder => s.decInFrame = t.decInFrame ∧ s.decEscaping = t.decEscaping ∧ s.decBuf = t.decBuf
  | .ring k => s.slots k = t.slots k ∧ s.wCursor k = t.wCursor k ∧ s.dCursor k = t.dCursor k

/-- Nothing outside one unit changes, and nothing of the owner's pending input (R22, R46). -/
def OnlyUnit (u : BlockUnit) (s t : State) : Prop :=
  (∀ v, v ≠ u → s.SameUnit t v) ∧ t.input = s.input

/-- Where R110's append leaves the decoder, response included: the byte stored and NONE, or the frame aborted and
BAD(OVERFLOW). -/
def afterAppend (p : Config) (v : Byte) (s : State) : State :=
  if s.decBuf.length < p.maxAcc then { s with decBuf := s.decBuf ++ [v], output := s.output ++ [[0x00]] }
  else { s with decInFrame := false, decEscaping := false, decBuf := [], output := s.output ++ [[0x02, 0x05]] }

/-- The response to an end marker that closes a frame with this body (R63, R108, R120): a reason's code after the kind
byte BAD, or the body as received after the kind byte FRAME. -/
def endResponse (body : List Byte) : List Byte :=
  if body.length < 7 then [0x02, 0x01]
  else if body.getD 0 0 ≠ 0x02 then [0x02, 0x02]
  else if (body.getD 4 0).toNat ≠ body.length - 7 then [0x02, 0x03]
  else if crc16 Config.default (body.take (body.length - 2)) ≠
      ((body.getD (body.length - 2) 0).setWidth 16 <<< 8) ||| (body.getD (body.length - 1) 0).setWidth 16 then
    [0x02, 0x04]
  else 0x01 :: body

/-- The codes R64 lists as unassigned. -/
def UnassignedCode (op : Byte) : Prop :=
  (0x03 ≤ op.toNat ∧ op.toNat ≤ 0x0F) ∨ (0x12 ≤ op.toNat ∧ op.toNat ≤ 0x1F) ∨
  (0x22 ≤ op.toNat ∧ op.toNat ≤ 0x2F) ∨ op.toNat = 0x37 ∨ op.toNat = 0x3F ∨ 0x40 ≤ op.toNat

/-- R127's garbage, read from a state that is escaping or not: no unescaped start or end marker, and no escape marker
left open at its end. -/
def quietGarbage (p : Config) : Bool → List Byte → Bool
  | escaping, [] => !escaping
  | true, _ :: g => quietGarbage p false g
  | false, b :: g =>
    if b = p.esc then quietGarbage p true g
    else b != p.sof && b != p.eof && quietGarbage p false g

/-- The events an owner reads off DEC_BYTE responses that carry a frame (R63: kind byte 01). -/
def frameResponses (rs : List (List Byte)) : List (List Byte) :=
  rs.filter (fun r => r.head? == some 0x01)

end Sys2Proof.Machine
end

