-- ==== Sys2Proof/Certificates/Slice0/Obligations.lean ====
section
/-! DEFINITION. The statements for the provers: what the operations, the decoder, the ring buffers and the port do, from
the numbered rules of spec/. Constants are written as the spec prints them. -/

open Sys2Proof Sys2Proof.Machine

/-! ## Reset and the port -/

/-- R26: the values after reset, and that CRC_INIT; DEC_RESET; RB_INIT NORMAL; RB_INIT EMERGENCY, from whatever state,
leave the same state. -/
def Obligations.ResetValues : Prop :=
  State.reset.crc = 0xFFFF ∧ State.reset.decInFrame = false ∧ State.reset.decEscaping = false ∧
  State.reset.decBuf.length = 0 ∧
  (∀ k a, a < 19 * capacity .default k → (State.reset.slots k).read a = 0x00) ∧
  (∀ k, State.reset.wCursor k = 0 ∧ State.reset.dCursor k = 0) ∧
  ∀ s : State, ∃ t, execAll [.crcInit, .decReset, .rbInit .normal, .rbInit .emergency] s = .next t ∧
    t.block = State.reset.block

/-- R200: applying reset between operations leaves the reset state from any state; with nothing issued the block waits.
That the owner's later input and the responses already given stay is the model's own (log 20). -/
def Obligations.ResetAppliedAndWaiting : Prop :=
  (∀ (s : State) (later : List Input), s.input = .reset :: later →
    ∃ t, step s = .next t ∧ t.block = State.reset.block ∧ t.input = later ∧ t.output = s.output) ∧
  (∀ s : State, s.input = [] → step s = .next s)

/-- R202: the four partial resets, in any order and from any state, reproduce the reset state. -/
def Obligations.PartialResetsInAnyOrder : Prop :=
  ∀ (ops : List Instr) (s : State),
    ops.Perm [.crcInit, .decReset, .rbInit .normal, .rbInit .emergency] →
    ∃ t, execAll ops s = .next t ∧ t.block = State.reset.block

/-- A step runs the decoded instruction: the request at the front of the port's bytes, or the row at the front of the
received bytes, with those bytes taken from the input and nothing else changed before it runs. The input is the model's
form of the owner's free choice (log 1), and the cut into rows is the model's (log 10). -/
def Obligations.StepRunsDecoded : Prop :=
  (∀ (s : State) (bytes rest : List Byte) (later : List Input) (i : Instr),
    s.input = .request bytes :: later → decodeOp .default bytes = .ok i rest →
    step s = exec i { s with input := if rest = [] then later else .request rest :: later }) ∧
  (∀ (s : State) (bytes rest : List Byte) (later : List Input) (i : Instr),
    s.input = .wire bytes :: later → decodeWire .default s.atTypeByte bytes = .ok i rest →
    step s = exec i { s with input := if rest = [] then later else .wire rest :: later })

/-- R64: an unassigned code takes no operands, changes no state and is answered by the byte FF. -/
def Obligations.UnassignedCodeAnswersIll : Prop :=
  ∀ (s : State) (op : Byte) (rest : List Byte) (later : List Input),
    UnassignedCode op → s.input = .request (op :: rest) :: later →
    step s = .next { s with
      input := if rest = [] then later else .request rest :: later
      output := s.output ++ [[0xFF]] }

/-- R215: a request cut short anywhere after its code byte has no meaning; the step stops by name (log 6). -/
def Obligations.TruncatedRequestStops : Prop :=
  ∀ (s : State) (i : Instr) (op : Byte) (given missing : List Byte) (later : List Input),
    i.wellFormed .default = true → i.kind = .op → encode .default i = op :: given ++ missing → missing ≠ [] →
    s.input = .request (op :: given) :: later →
    step s = .refused (.truncatedRequest op)

/-- R180: every operation completes and leaves the block ready for the next one. -/
def Obligations.EveryOperationCompletes : Prop :=
  ∀ (i : Instr) (s : State), s.AccOk .default → ∃ t, exec i s = .next t ∧ t.AccOk .default

/-- A chunk of whole requests runs, one step each, as the list of operations it encodes (R6, R41, R62). -/
def Obligations.RequestStreamRunsInOrder : Prop :=
  ∀ (ops : List Instr) (s : State),
    (∀ i ∈ ops, i.wellFormed .default = true ∧ i.kind = .op) →
    s.input = [.request (ops.flatMap (encode .default))] → ops ≠ [] →
    Sys2Proof.core.run ops.length s = execAll ops { s with input := [] }

/-- However the rows of a chunk of received bytes are cut, running it to its end is one DEC_BYTE per byte (R30,
R128 g). -/
def Obligations.WireChunkIsFeed : Prop :=
  ∀ (bytes : List Byte) (s : State), s.AccOk .default → s.input = [.wire bytes] →
    ∃ n t, Sys2Proof.core.run n s = .next t ∧ execAll (feed bytes) { s with input := [] } = .next t

/-! ## The CRC generator -/

/-- R81: code 00, no operands; the register takes FFFF. -/
def Obligations.CrcInitLoadsInit : Prop :=
  (∀ rest, decodeOp .default (0x00 :: rest) = .ok .crcInit rest) ∧
  ∀ s : State, exec .crcInit s = .next { s with crc := 0xFFFF, output := s.output ++ [[]] }

/-- R82: code 01 and one byte; the byte into bits 15:8, then eight left shifts, each XORing in 1021 when bit 15 was 1.
-/
def Obligations.CrcByteShiftsEightTimes : Prop :=
  (∀ b rest, decodeOp .default (0x01 :: b :: rest) = .ok (.crcByte b) rest) ∧
  ∀ (b : Byte) (s : State), exec (.crcByte b) s = .next
    { s with
      crc := (fun c : Word16 => if c.getLsbD 15 then (c <<< 1) ^^^ 0x1021 else c <<< 1)^[8]
        (s.crc ^^^ (b.setWidth 16 <<< 8))
      output := s.output ++ [[]] }

/-- R83: code 02, no operands; high byte, then low byte; nothing written. -/
def Obligations.CrcReadAnswersBigEndian : Prop :=
  (∀ rest, decodeOp .default (0x02 :: rest) = .ok .crcRead rest) ∧
  ∀ s : State, exec .crcRead s = .next
    { s with output := s.output ++ [[s.crc.extractLsb' 8 8, s.crc.extractLsb' 0 8]] }

/-- R85: CRC_INIT and a CRC_BYTE per byte leave `crc16` of the bytes, and going on leaves that of all of them.
R66: so CRC16 answers `crc16` of the bytes, high byte first. -/
def Obligations.CrcStreamAgreesWithFunction : Prop :=
  ∀ (xs ys : List Byte) (s : State),
    execAll (.crcInit :: xs.map Instr.crcByte) s = .next
      { s with crc := crc16 .default xs, output := s.output ++ List.replicate (xs.length + 1) [] } ∧
    execAll (.crcInit :: (xs ++ ys).map Instr.crcByte) s =
      execAll (ys.map Instr.crcByte)
        { s with crc := crc16 .default xs, output := s.output ++ List.replicate (xs.length + 1) [] } ∧
    execAll (ys.map Instr.crcByte) { s with crc := crc16 .default xs } = .next
      { s with crc := crc16 .default (xs ++ ys), output := s.output ++ List.replicate ys.length [] } ∧
    ∃ t, runPseudo (.crc16 xs) s =
      .next (t, .crc [(crc16 .default xs).extractLsb' 8 8, (crc16 .default xs).extractLsb' 0 8])

/-- R86: the arithmetic is XOR and shift only, so one register step is linear, for every parameter of R4. What
`P_REFIN` true does to the byte is the model's choice (log 31). -/
def Obligations.CrcStepIsLinear : Prop :=
  ∀ (p : Config) (c d : Word16) (a b : Byte), crcStep p (c ^^^ d) (a ^^^ b) = crcStep p c a ^^^ crcStep p d b

/-- A sequence followed by its own CRC, high byte first, has CRC zero (from R33, R82, R84). -/
def Obligations.CrcOfCheckedBodyIsZero : Prop :=
  ∀ xs : List Byte,
    crc16 .default (xs ++ [(crc16 .default xs).extractLsb' 8 8, (crc16 .default xs).extractLsb' 0 8]) = 0x0000

/-! ## The frame encoder -/

/-- R92: code 10 and one byte; a marker becomes the escape pair, any other byte itself; nothing written. -/
def Obligations.StuffEscapesMarkers : Prop :=
  (∀ b rest, decodeOp .default (0x10 :: b :: rest) = .ok (.stuff b) rest) ∧
  ∀ (b : Byte) (s : State), exec (.stuff b) s = .next
    { s with output := s.output ++
        [if b = 0x7E ∨ b = 0x7F ∨ b = 0x7D then [0x7D, b ^^^ 0x20] else [b]] }

/-- R91, R93: code 11 with its four bytes and the payload as given; the payload is cut to 64 bytes; the whole frame is
the response; nothing else of the state changes. -/
def Obligations.EncFrameAnswersTheFrame : Prop :=
  (∀ (type flags seq : Byte) (payload rest : List Byte), payload.length ≤ 255 →
    decodeOp .default ([0x11, type, flags, seq, BitVec.ofNat 8 payload.length] ++ payload ++ rest) =
      .ok (.encFrame type flags seq payload) rest) ∧
  ∀ (type flags seq : Byte) (payload : List Byte) (s : State),
    ∃ covered body : List Byte,
      covered = [0x02, type, flags, seq, BitVec.ofNat 8 (min payload.length 64)] ++ payload.take 64 ∧
      body = covered ++ [(crc16 .default covered).extractLsb' 8 8, (crc16 .default covered).extractLsb' 0 8] ∧
      exec (.encFrame type flags seq payload) s = .next
        { s with output := s.output ++
          [[0x7E] ++
            body.flatMap (fun b => if b = 0x7E ∨ b = 0x7F ∨ b = 0x7D then [0x7D, b ^^^ 0x20] else [b]) ++
            [0x7F]] }

/-- R91, R94 b: what lies past the first 64 payload bytes has no effect. -/
def Obligations.PayloadIsTruncatedSilently : Prop :=
  ∀ (type flags seq : Byte) (payload more : List Byte) (s : State), payload.length = 64 →
    exec (.encFrame type flags seq (payload ++ more)) s = exec (.encFrame type flags seq payload) s

/-- R94 f: SOF first, EOF last, neither between them, and an escape marker between them only as the first byte of an
escape pair. -/
def Obligations.FrameHasNoInnerMarkers : Prop :=
  ∀ (type flags seq : Byte) (payload : List Byte) (s : State), ∃ (inner : List Byte) (t : State),
    exec (.encFrame type flags seq payload) s = .next t ∧
    t.output = s.output ++ [[0x7E] ++ inner ++ [0x7F]] ∧
    0x7E ∉ inner ∧ 0x7F ∉ inner ∧
    ∀ n : Nat, inner[n]? = some 0x7D →
      ∃ x : Byte, inner[n + 1]? = some x ∧ (x = 0x5D ∨ x = 0x5E ∨ x = 0x5F)

/-- R56: 7 to 71 body bytes, 9 to 142 wire bytes. -/
def Obligations.FrameLengthBounds : Prop :=
  ∀ (type flags seq : Byte) (payload : List Byte),
    7 ≤ (encodeBody .default type flags seq payload).length ∧ (encodeBody .default type flags seq payload).length ≤ 71 ∧
    9 ≤ (encodeFrame .default type flags seq payload).length ∧
    (encodeFrame .default type flags seq payload).length ≤ 142

/-! ## The stream decoder -/

/-- R101: code 20, no operands; out of frame, not escaping, empty, and no event even if a frame is dropped. -/
def Obligations.DecResetClears : Prop :=
  (∀ rest, decodeOp .default (0x20 :: rest) = .ok .decReset rest) ∧
  ∀ s : State, exec .decReset s = .next
    { s with decInFrame := false, decEscaping := false, decBuf := [], output := s.output ++ [[]] }

/-- R103, R104: out of frame only the start marker has an effect. -/
def Obligations.OutOfFrameOnlySofActs : Prop :=
  ∀ (b : Byte) (s : State), s.decInFrame = false →
    exec (.decByte b) s = .next
      (if b = 0x7E then
        { s with decInFrame := true, decEscaping := false, decBuf := [], output := s.output ++ [[0x00]] }
      else { s with output := s.output ++ [[0x00]] })

/-- R105, R110: any byte after an escape marker is data XOR 20, appended or overflowing. -/
def Obligations.EscapedByteIsData : Prop :=
  ∀ (b : Byte) (s : State), s.decInFrame = true → s.decEscaping = true → s.AccOk .default →
    exec (.decByte b) s = .next (afterAppend .default (b ^^^ 0x20) { s with decEscaping := false })

/-- R106: the escape marker sets escaping and appends nothing, even with a full buffer. -/
def Obligations.EscapeMarkerSetsEscaping : Prop :=
  ∀ s : State, s.decInFrame = true → s.decEscaping = false →
    exec (.decByte 0x7D) s = .next { s with decEscaping := true, output := s.output ++ [[0x00]] }

/-- R107: a start marker in frame drops the partial frame without a report and stays in frame. -/
def Obligations.StartMarkerResynchronises : Prop :=
  ∀ s : State, s.decInFrame = true → s.decEscaping = false →
    exec (.decByte 0x7E) s = .next { s with decBuf := [], output := s.output ++ [[0x00]] }

/-- R109, R110: any other byte is stored; the 257th aborts the frame. -/
def Obligations.DataByteIsAppended : Prop :=
  ∀ (b : Byte) (s : State), s.decInFrame = true → s.decEscaping = false → s.AccOk .default →
    b ≠ 0x7D → b ≠ 0x7E → b ≠ 0x7F →
    exec (.decByte b) s = .next (afterAppend .default b s)

/-- R108, R120 to R124: the end marker parses the buffer, the first failing check names the reason, and the decoder
goes out of frame whatever the parse says. -/
def Obligations.EndMarkerParsesTheBody : Prop :=
  ∀ s : State, s.decInFrame = true → s.decEscaping = false → s.AccOk .default →
    exec (.decByte 0x7F) s = .next
      { s with decInFrame := false, decEscaping := false, decBuf := [],
               output := s.output ++ [endResponse s.decBuf] }

/-- R125: a FRAME event comes only from an end marker that closes a frame, and carries fields that satisfy the
DecodedFrame invariant. -/
def Obligations.DeliveredFramesAreValid : Prop :=
  ∀ (b : Byte) (s t : State) (r : List Byte),
    exec (.decByte b) s = .next t → t.output = s.output ++ [0x01 :: r] →
    b = 0x7F ∧ s.decInFrame = true ∧ s.decEscaping = false ∧ r = s.decBuf ∧
    ∃ (type flags seq len hi lo : Byte) (payload : List Byte),
      r = [0x02, type, flags, seq, len] ++ payload ++ [hi, lo] ∧ payload.length = len.toNat ∧ len.toNat ≤ 249 ∧
      (hi.setWidth 16 <<< 8) ||| lo.setWidth 16 = crc16 .default ([0x02, type, flags, seq, len] ++ payload)

/-- R111: the decoder's transition table, over the four byte classes and DEC_RESET. That the four rows run as received
bytes is the model's reading (log 10). -/
def Obligations.TransitionTable : Prop :=
  ∀ s : State, s.AccOk .default →
    (s.decInFrame = false →
      exec .sof s = .next { s with decInFrame := true, decEscaping := false, decBuf := [],
                                   output := s.output ++ [[0x00]] } ∧
      exec .esc s = .next { s with output := s.output ++ [[0x00]] } ∧
      exec .eof s = .next { s with output := s.output ++ [[0x00]] } ∧
      ∀ b, isMarker .default b = false → exec (.data b) s = .next { s with output := s.output ++ [[0x00]] }) ∧
    (s.decInFrame = true → s.decEscaping = false →
      exec .sof s = .next { s with decBuf := [], output := s.output ++ [[0x00]] } ∧
      exec .esc s = .next { s with decEscaping := true, output := s.output ++ [[0x00]] } ∧
      exec .eof s = .next { s with decInFrame := false, decBuf := [],
                                   output := s.output ++ [endResponse s.decBuf] } ∧
      ∀ b, isMarker .default b = false → exec (.data b) s = .next (afterAppend .default b s)) ∧
    (s.decInFrame = true → s.decEscaping = true →
      exec .sof s = .next (afterAppend .default 0x5E { s with decEscaping := false }) ∧
      exec .esc s = .next (afterAppend .default 0x5D { s with decEscaping := false }) ∧
      exec .eof s = .next (afterAppend .default 0x5F { s with decEscaping := false }) ∧
      ∀ b, isMarker .default b = false →
        exec (.data b) s = .next (afterAppend .default (b ^^^ 0x20) { s with decEscaping := false })) ∧
    exec .decReset s = .next { s with decInFrame := false, decEscaping := false, decBuf := [],
                                      output := s.output ++ [[]] }

/-- R54, R105, R106: an escape pair in frame appends the one body byte it stands for; its two bytes are otherwise taken
one after the other. That these rows run as two received bytes is the model's reading (log 10). -/
def Obligations.EscapePairStandsForOneByte : Prop :=
  ∀ (i : Instr) (v : Byte) (s : State), s.AccOk .default →
    (i, v) ∈ [(Instr.escPair7E, (0x7E : Byte)), (Instr.escPair7F, 0x7F), (Instr.escPair7D, 0x7D)] →
    (s.decInFrame = false → exec i s = .next { s with output := s.output ++ [[0x00], [0x00]] }) ∧
    (s.decInFrame = true → s.decEscaping = false →
      exec i s = .next (afterAppend .default v { s with output := s.output ++ [[0x00]] })) ∧
    (s.decInFrame = true → s.decEscaping = true →
      ∃ t, t = afterAppend .default 0x5D { s with decEscaping := false } ∧
        exec i s = .next
          (if t.decInFrame = true then afterAppend .default (v ^^^ 0x20) t
          else { t with output := t.output ++ [[0x00]] }))

/-- R58, R150: a TYPE value reaches the decoder as the byte it is and is carried unchanged. That these rows run as
received bytes is the model's reading (log 11). -/
def Obligations.TypeByteIsCarriedUnchanged : Prop :=
  ∀ (i : Instr) (b : Byte) (s : State), s.AccOk .default →
    (i, b) ∈ [(Instr.typeStatus, (0x01 : Byte)), (Instr.typeTime, 0x02), (Instr.typeCall, 0x03),
      (Instr.typeNotify, 0x04), (Instr.typePing, 0x05), (Instr.typeAck, 0x10)] →
    (s.decInFrame = false → exec i s = .next { s with output := s.output ++ [[0x00]] }) ∧
    (s.decInFrame = true → s.decEscaping = false → exec i s = .next (afterAppend .default b s)) ∧
    (s.decInFrame = true → s.decEscaping = true →
      exec i s = .next (afterAppend .default (b ^^^ 0x20) { s with decEscaping := false }))

/-- R63, R181, R185: giving a report discards the buffer, leaves the frame and answers the reason's code; the answers
NONE and FRAME likewise. That the answer rows run as the decoder's own acts is the model's reading (log 12). -/
def Obligations.AnswersAndReports : Prop :=
  ∀ s : State,
    (∀ (i : Instr) (code : Byte),
      (i, code) ∈ [(Instr.tooShort, (0x01 : Byte)), (Instr.badVersion, 0x02), (Instr.lenMismatch, 0x03),
        (Instr.crcMismatch, 0x04), (Instr.overflow, 0x05),
        (Instr.evBad .tooShort, 0x01), (Instr.evBad .badVersion, 0x02), (Instr.evBad .lenMismatch, 0x03),
        (Instr.evBad .crcMismatch, 0x04), (Instr.evBad .overflow, 0x05)] →
      exec i s = .next { s with decInFrame := false, decEscaping := false, decBuf := [],
                                output := s.output ++ [[0x02, code]] }) ∧
    exec .evNone s = .next { s with output := s.output ++ [[0x00]] } ∧
    ∀ f : Frame, exec (.evFrame f) s = .next
      { s with decInFrame := false, decEscaping := false, decBuf := [],
               output := s.output ++
                [[0x01, f.version, f.type, f.flags, f.seq, BitVec.ofNat 8 f.payload.length] ++ f.payload ++
                  [f.crc16.extractLsb' 8 8, f.crc16.extractLsb' 0 8]] }

/-- R95: what the encoder sends, the decoder delivers: no event before the last byte, then exactly the frame. Second,
the same of the block with any parameters that R4's two constraints allow and the formats fit (`Config.Fits` is the
model's, log 8; which of the CRC parameters the frame's CRC reads is the model's choice, log 31). -/
def Obligations.DecodeOfEncodeIsTheFrame : Prop :=
  (∀ (type flags seq : Byte) (payload : List Byte) (s : State), payload.length ≤ 64 →
    s.decInFrame = false → s.decEscaping = false → s.decBuf = [] →
    ∃ covered : List Byte,
      covered = [0x02, type, flags, seq, BitVec.ofNat 8 payload.length] ++ payload ∧
      execAll (feed (encodeFrame .default type flags seq payload)) s = .next
        { s with output := s.output ++
          List.replicate ((encodeFrame .default type flags seq payload).length - 1) [0x00] ++
          [0x01 :: covered ++
            [(crc16 .default covered).extractLsb' 8 8, (crc16 .default covered).extractLsb' 0 8]] }) ∧
  ∀ (p : Config) (type flags seq : Byte) (payload : List Byte) (s : State), p.Valid → p.Fits →
    payload.length ≤ p.maxPayload → s.decInFrame = false → s.decEscaping = false → s.decBuf = [] →
    ∃ covered : List Byte,
      covered = [p.ver, type, flags, seq, BitVec.ofNat 8 payload.length] ++ payload ∧
      execAllAt p (feed (encodeFrame p type flags seq payload)) s = .next
        { s with output := s.output ++
          List.replicate ((encodeFrame p type flags seq payload).length - 1) [0x00] ++
          [0x01 :: covered ++ [(crc16 p covered).extractLsb' 8 8, (crc16 p covered).extractLsb' 0 8]] }

/-- R127: a start marker, garbage without an unescaped marker, then a valid frame give exactly one event, the frame's.
The garbage is at most 256 bytes, since more could overflow the buffer (R110). -/
def Obligations.ResynchronisationRecovers : Prop :=
  ∀ (garbage : List Byte) (type flags seq : Byte) (payload : List Byte) (s : State),
    payload.length ≤ 64 → garbage.length ≤ 256 → quietGarbage .default false garbage = true →
    s.decInFrame = false → s.decEscaping = false → s.decBuf = [] →
    ∃ frame : List Byte, frame = encodeFrame .default type flags seq payload ∧
      execAll (feed ([0x7E] ++ garbage ++ frame)) s = .next
        { s with output := s.output ++ List.replicate (garbage.length + frame.length) [0x00] ++
            [0x01 :: encodeBody .default type flags seq payload] }

/-- R110: 257 stored bytes without an end marker give one report OVERFLOW and no frame; what follows is ignored up to
the next start marker. Second, the trip point of any `P_MAX_ACC` (D6, U12; log 8). -/
def Obligations.OverflowForcesResync : Prop :=
  (∀ (xs ys : List Byte) (b : Byte) (s : State),
    s.decInFrame = false → s.decEscaping = false → s.decBuf = [] →
    xs.length = 256 → (∀ x ∈ xs, isMarker .default x = false) → isMarker .default b = false → 0x7E ∉ ys →
    execAll (feed ([0x7E] ++ xs ++ [b] ++ ys)) s = .next
      { s with output := s.output ++ List.replicate 257 [0x00] ++ [[0x02, 0x05]] ++
          List.replicate ys.length [0x00] }) ∧
  ∀ (p : Config) (xs ys : List Byte) (b : Byte) (s : State),
    s.decInFrame = false → s.decEscaping = false → s.decBuf = [] →
    xs.length = p.maxAcc → (∀ x ∈ xs, isMarker p x = false) → isMarker p b = false → p.sof ∉ ys →
    execAllAt p (feed ([p.sof] ++ xs ++ [b] ++ ys)) s = .next
      { s with output := s.output ++ List.replicate (p.maxAcc + 1) [0x00] ++ [[0x02, 0x05]] ++
          List.replicate ys.length [0x00] }

/-- R128 g, R66: after DEC_RESET the events and the decoder's state depend on the bytes received alone, not on anything
that stood in the state before; so DECODE answers one list of events, whatever the state: its FEED's, whose first
response stands after DEC_RESET's (DEDUCED, log 32). -/
def Obligations.EventsDependOnBytesAlone : Prop :=
  ∀ (bytes : List Byte) (s s' : State), ∃ (rs : List (List Byte)) (t t' : State) (es : List (Nat × Event)),
    runPseudo (.decode bytes) s = .next (t, .events es) ∧ runPseudo (.decode bytes) s' = .next (t', .events es) ∧
    (∀ (j : Nat) (e : Event), (j, e) ∈ es ↔ e ≠ .none ∧ rs[j + 1]? = some (eventBytes e)) ∧
    execAll (decodeStream bytes) s = .next t ∧ execAll (decodeStream bytes) s' = .next t' ∧
    t.output = s.output ++ rs ∧ t'.output = s'.output ++ rs ∧ t.SameUnit t' .decoder

/-- R128 f, R66: one response per byte, and no more FRAME events than end markers received. FEED answers exactly the
events among the responses that are not NONE, in order, each with the index of its byte. -/
def Obligations.NoMoreFramesThanEndMarkers : Prop :=
  ∀ (bytes : List Byte) (s : State), s.AccOk .default →
    ∃ (rs : List (List Byte)) (t : State) (es : List (Nat × Event)),
      execAll (feed bytes) s = .next t ∧ t.output = s.output ++ rs ∧ rs.length = bytes.length ∧
      (frameResponses rs).length ≤ bytes.count 0x7F ∧
      runPseudo (.feed bytes) s = .next (t, .events es) ∧ (es.map Prod.fst).Pairwise (· < ·) ∧
      ∀ (j : Nat) (e : Event), (j, e) ∈ es ↔ e ≠ .none ∧ rs[j]? = some (eventBytes e)

/-! ## The ring buffers -/

/-- R132: codes 30 and 38, no operands; every byte of every slot and both cursors are zero; the other units are
untouched. -/
def Obligations.RbInitZeroes : Prop :=
  (∀ rest, decodeOp .default (0x30 :: rest) = .ok (.rbInit .normal) rest ∧
    decodeOp .default (0x38 :: rest) = .ok (.rbInit .emergency) rest) ∧
  ∀ (k : MsgClass) (s : State), ∃ t, exec (.rbInit k) s = .next t ∧ OnlyUnit (.ring k) s t ∧
    (∀ a, a < 19 * capacity .default k → (t.slots k).read a = 0x00) ∧
    t.wCursor k = 0 ∧ t.dCursor k = 0 ∧ t.output = s.output ++ [[]]

/-- R133, R131: codes 31 and 39 and 17 content bytes; the slot at the write cursor (0 if out of range) is written
whole, every byte outside it reads as before, the write cursor advances and wraps, the display cursor stays. -/
def Obligations.RbAddWritesTheWholeSlot : Prop :=
  (∀ content rest : List Byte, content.length = 17 →
    decodeOp .default (0x31 :: content ++ rest) = .ok (.rbAdd .normal content) rest ∧
    decodeOp .default (0x39 :: content ++ rest) = .ok (.rbAdd .emergency content) rest) ∧
  ∀ (k : MsgClass) (content : List Byte) (s : State), content.length = 17 →
    ∃ (w0 : Nat) (t : State), w0 = (if s.wCursor k < capacity .default k then s.wCursor k else 0) ∧
      exec (.rbAdd k content) s = .next t ∧ OnlyUnit (.ring k) s t ∧
      (∀ a, (t.slots k).read a =
        if 19 * w0 ≤ a ∧ a < 19 * w0 + 19 then ([0x01, 0x00] ++ content).getD (a - 19 * w0) 0
        else (s.slots k).read a) ∧
      t.wCursor k = (w0 + 1) % capacity .default k ∧ t.dCursor k = s.dCursor k ∧ t.output = s.output ++ [[]]

/-- R134, R131: codes 32 and 3A, no operands; the display cursor moves onto the first enabled slot met from it,
wrapping once; with none enabled it stays, clamped. -/
def Obligations.RbFindMovesToFirstEnabled : Prop :=
  (∀ rest, decodeOp .default (0x32 :: rest) = .ok (.rbFind .normal) rest ∧
    decodeOp .default (0x3A :: rest) = .ok (.rbFind .emergency) rest) ∧
  ∀ (k : MsgClass) (s : State), ∃ (d0 : Nat) (t : State),
    d0 = (if s.dCursor k < capacity .default k then s.dCursor k else 0) ∧
    exec (.rbFind k) s = .next t ∧ OnlyUnit (.ring k) s t ∧ t.slots k = s.slots k ∧ t.wCursor k = s.wCursor k ∧
    (∀ i, i < capacity .default k → (s.slots k).read (19 * ((d0 + i) % capacity .default k)) ≠ 0x00 →
      (∀ i', i' < i → (s.slots k).read (19 * ((d0 + i') % capacity .default k)) = 0x00) →
      t.dCursor k = (d0 + i) % capacity .default k ∧
      t.output = s.output ++ [[0x01, BitVec.ofNat 8 ((d0 + i) % capacity .default k)]]) ∧
    ((∀ j, j < capacity .default k → (s.slots k).read (19 * j) = 0x00) →
      t.dCursor k = d0 ∧ t.output = s.output ++ [[0x00, BitVec.ofNat 8 d0]])

/-- R38, R134: a second RB_FIND right after the first gives the same response and changes nothing. -/
def Obligations.RbFindIsIdempotent : Prop :=
  ∀ (k : MsgClass) (s : State), ∃ (r : List Byte) (t : State),
    exec (.rbFind k) s = .next t ∧ t.output = s.output ++ [r] ∧
    exec (.rbFind k) t = .next { t with output := t.output ++ [r] }

/-- R135, R131: codes 33 and 3B, no operands; the display cursor moves by one, wrapping; nothing else changes. -/
def Obligations.RbAdvMovesByOne : Prop :=
  (∀ rest, decodeOp .default (0x33 :: rest) = .ok (.rbAdv .normal) rest ∧
    decodeOp .default (0x3B :: rest) = .ok (.rbAdv .emergency) rest) ∧
  ∀ (k : MsgClass) (s : State), ∃ t, exec (.rbAdv k) s = .next t ∧ OnlyUnit (.ring k) s t ∧
    t.slots k = s.slots k ∧ t.wCursor k = s.wCursor k ∧
    t.dCursor k = (if s.dCursor k + 1 < capacity .default k then s.dCursor k + 1
      else if s.dCursor k + 1 = capacity .default k then 0 else 1) ∧
    t.output = s.output ++ [[]]

/-- R135: `N_k` successive RB_ADV return an in-range cursor to where it was. -/
def Obligations.RbAdvCycles : Prop :=
  ∀ (k : MsgClass) (s : State), s.dCursor k < capacity .default k →
    ∃ t, execAll (List.replicate (capacity .default k) (.rbAdv k)) s = .next t ∧ t.block = s.block

/-- R136: codes 34 and 3C, no operands; the number of enabled slots, whatever the cursors; nothing written. -/
def Obligations.RbCountCountsEnabled : Prop :=
  (∀ rest, decodeOp .default (0x34 :: rest) = .ok (.rbCount .normal) rest ∧
    decodeOp .default (0x3C :: rest) = .ok (.rbCount .emergency) rest) ∧
  ∀ (k : MsgClass) (s : State), ∃ n : Nat,
    n = (List.range (capacity .default k)).countP (fun j => (s.slots k).read (19 * j) != 0x00) ∧
    n ≤ capacity .default k ∧
    exec (.rbCount k) s = .next { s with output := s.output ++ [[BitVec.ofNat 8 n]] }

/-- R137: codes 35 and 3D, no operands; the display cursor is rewound to 0; slots and write cursor are unchanged. -/
def Obligations.RbRstdRewinds : Prop :=
  (∀ rest, decodeOp .default (0x35 :: rest) = .ok (.rbRstd .normal) rest ∧
    decodeOp .default (0x3D :: rest) = .ok (.rbRstd .emergency) rest) ∧
  ∀ (k : MsgClass) (s : State), ∃ t, exec (.rbRstd k) s = .next t ∧ OnlyUnit (.ring k) s t ∧
    t.slots k = s.slots k ∧ t.wCursor k = s.wCursor k ∧ t.dCursor k = 0 ∧ t.output = s.output ++ [[]]

/-- R138, R131: codes 36 and 3E, no operands; the 19 bytes of the slot under the display cursor (0 if out of range);
nothing written. -/
def Obligations.RbReadAnswersTheSlot : Prop :=
  (∀ rest, decodeOp .default (0x36 :: rest) = .ok (.rbRead .normal) rest ∧
    decodeOp .default (0x3E :: rest) = .ok (.rbRead .emergency) rest) ∧
  ∀ (k : MsgClass) (s : State), ∃ (d0 : Nat) (r : List Byte),
    d0 = (if s.dCursor k < capacity .default k then s.dCursor k else 0) ∧
    exec (.rbRead k) s = .next { s with output := s.output ++ [r] } ∧
    r.length = 19 ∧ ∀ i, i < 19 → r[i]? = some ((s.slots k).read (19 * d0 + i))

/-- R38, R90: the reading operations change nothing, so issued twice they answer twice the same. -/
def Obligations.ReadsHaveNoSideEffect : Prop :=
  ∀ (i : Instr) (s : State),
    (i = .crcRead ∨ (∃ b, i = .stuff b) ∨ (∃ type flags seq payload, i = .encFrame type flags seq payload) ∨
      (∃ k, i = .rbCount k) ∨ (∃ k, i = .rbRead k)) →
    ∃ r : List Byte, exec i s = .next { s with output := s.output ++ [r] } ∧
      execAll [i, i] s = .next { s with output := s.output ++ [r, r] }

/-- From an emptied buffer, one entry added is found and read back whole (R132, R133, R134, R138). Second, the same with
any parameters: `P_EN_VALUE` is the flag read back (D14, U14; log 8). -/
def Obligations.AddedEntryIsReadBack : Prop :=
  (∀ (k : MsgClass) (content : List Byte) (s : State), content.length = 17 →
    ∃ t, execAll [.rbInit k, .rbAdd k content, .rbFind k, .rbRead k, .rbCount k] s = .next t ∧
      t.output = s.output ++ [[], [], [0x01, 0x00], [0x01, 0x00] ++ content, [0x01]]) ∧
  ∀ (p : Config) (k : MsgClass) (content : List Byte) (s : State), p.Fits → content.length + 2 = p.slotBytes →
    ∃ t, execAllAt p [.rbInit k, .rbAdd k content, .rbFind k, .rbRead k, .rbCount k] s = .next t ∧
      t.output = s.output ++ [[], [], [0x01, 0x00], [p.enValue, 0x00] ++ content, [0x01]]

/-- R139: after `m` additions since RB_INIT the write cursor is `m mod N`, the last `N` entries stand in their slots,
the slots not yet reached are empty, and the enabled count is `min(m, N)`. -/
def Obligations.LappingKeepsTheMostRecent : Prop :=
  ∀ (k : MsgClass) (contents : List (List Byte)) (s : State), (∀ c ∈ contents, c.length = 17) →
    ∃ t, execAll (.rbInit k :: contents.map (Instr.rbAdd k)) s = .next t ∧
      t.wCursor k = contents.length % capacity .default k ∧
      (∀ i c, contents[i]? = some c → contents.length ≤ i + capacity .default k →
        t.slotBytes .default k (i % capacity .default k) = [0x01, 0x00] ++ c) ∧
      (∀ j, contents.length ≤ j → j < capacity .default k → t.slotBytes .default k j = List.replicate 19 0x00) ∧
      exec (.rbCount k) t = .next
        { t with output := t.output ++ [[BitVec.ofNat 8 (min contents.length (capacity .default k))]] }

/-- R21 c: an enabled slot stays enabled through every instruction but RB_INIT of its class. -/
def Obligations.EnabledSlotsStayEnabled : Prop :=
  ∀ (i : Instr) (k : MsgClass) (j : Nat) (s t : State), exec i s = .next t → i ≠ .rbInit k → j < capacity .default k →
    (s.slots k).read (19 * j) ≠ 0x00 → (t.slots k).read (19 * j) ≠ 0x00

/-! ## The whole machine -/

/-- R22: no instruction writes a unit other than its own, nor the owner's pending input, and responses are only added.
-/
def Obligations.InstructionsWriteOnlyTheirUnit : Prop :=
  ∀ (i : Instr) (s t : State), exec i s = .next t →
    OnlyUnit i.unit s t ∧ ∃ rs, t.output = s.output ++ rs

/-- R46: instructions of different units, or of different ring-buffer classes, may be exchanged: each gives the
responses `ri`, `rj` it gives alone, and the final state is the same. -/
def Obligations.DifferentUnitsCommute : Prop :=
  ∀ (i j : Instr) (s : State), i.unit ≠ j.unit → s.AccOk .default →
    ∃ (ri rj : List (List Byte)) (u v t t' : State),
      exec i s = .next u ∧ u.output = s.output ++ ri ∧ exec j s = .next v ∧ v.output = s.output ++ rj ∧
      execAll [i, j] s = .next t ∧ execAll [j, i] s = .next t' ∧ t.block = t'.block ∧ t.input = t'.input ∧
      t.output = s.output ++ ri ++ rj ∧ t'.output = s.output ++ rj ++ ri

/-- R17, R216 b: the decoder invariants alone are kept by every instruction. -/
def Obligations.DecoderInvariantsAreKept : Prop :=
  ∀ (i : Instr) (s t : State), s.DecInv .default → exec i s = .next t → t.DecInv .default

/-- R17, R21 a and b: every step keeps the invariants of the whole block: the decoder's, cursors in range, slots empty
or written whole, and the slot memories in canonical form and in range. Second, every step of the block with any
parameters the formats fit (log 8). -/
def Obligations.StepKeepsTheInvariants : Prop :=
  (∀ s t : State, s.Inv .default → step s = .next t → t.Inv .default) ∧
  ∀ (p : Config) (s t : State), p.Fits → s.Inv p → stepAt p s = .next t → t.Inv p

/-- R216, R22: a cursor that an instruction changes is in range after it, whatever it was before; so is the cursor of
every operation R22's table names as its writer, changed or not. -/
def Obligations.ChangedCursorsAreInRange : Prop :=
  ∀ (i : Instr) (k : MsgClass) (s t : State), exec i s = .next t →
    (t.wCursor k = s.wCursor k ∨ t.wCursor k < capacity .default k) ∧
    (t.dCursor k = s.dCursor k ∨ t.dCursor k < capacity .default k) ∧
    (i = .rbInit k ∨ (∃ content, i = .rbAdd k content) → t.wCursor k < capacity .default k) ∧
    (i = .rbInit k ∨ i = .rbFind k ∨ i = .rbAdv k ∨ i = .rbRstd k → t.dCursor k < capacity .default k)

/-- The invariants hold after reset (R17, R21). -/
def Obligations.ResetHasTheInvariants : Prop := State.reset.Inv .default

/-! ## Encodings -/

/-- Decoding the encoding of a well-formed instruction gives it back, whatever follows, every operand at every value;
with the parameters of the machine (`Config.default`) and with any others R4's constraints allow. -/
def Obligations.DecodeOfEncode : Prop :=
  (∀ (i : Instr) (rest : List Byte), i.wellFormed .default = true →
    decode .default i.kind (encode .default i ++ rest) = .ok i rest) ∧
  ∀ (p : Config) (i : Instr) (rest : List Byte), p.Valid → i.wellFormed p = true →
    decode p i.kind (encode p i ++ rest) = .ok i rest

/-- What a decoder accepts is a well-formed instruction of its kind, and its bytes are that instruction's encoding: no
byte pattern is read as a neighbour. -/
def Obligations.EncodeOfDecode : Prop :=
  ∀ (p : Config) (kind : RowKind) (bytes rest : List Byte) (i : Instr), decode p kind bytes = .ok i rest →
    i.wellFormed p = true ∧ i.kind = kind ∧ bytes = encode p i ++ rest

/-- R61, R64: the codes of R61's table and the unassigned codes of R64 are exactly the 256 values of a code byte. -/
def Obligations.CodesAreAssignedOrNot : Prop :=
  ∀ (op : Byte) (rest : List Byte),
    UnassignedCode op ↔ decodeOp .default (op :: rest) = .rejected (.unassigned op)

/-- Words written out from R61, R62, R54, R55, R150 and R181, and what they decode to. -/
def Obligations.SampleWordsDecode : Prop :=
  decode .default .op [0x01, 0x31] = .ok (.crcByte 0x31) [] ∧
  decode .default .op [0x11, 0x04, 0x00, 0x07, 0x02, 0x48, 0x69] = .ok (.encFrame 0x04 0x00 0x07 [0x48, 0x69]) [] ∧
  decode .default .op [0x21, 0x7E] = .ok (.decByte 0x7E) [] ∧
  decode .default .op [0x3A] = .ok (.rbFind .emergency) [] ∧
  decode .default .op [0x34] = .ok (.rbCount .normal) [] ∧
  decode .default .wireByte [0x7E] = .ok .sof [] ∧
  decode .default .wirePair [0x7D, 0x5F] = .ok .escPair7F [] ∧
  decode .default .frameType [0x10] = .ok .typeAck [] ∧
  decode .default .eventKind [0x02, 0x04] = .ok (.evBad .crcMismatch) [] ∧
  decode .default .badReason [0x05] = .ok .overflow []
end

