-- ==== Sys2Proof/Laws/Config.lean ====
section
/-! SUPPORT. The parameters: the defaults meet R4's two constraints and what the formats presuppose; what the
constraints give; the sizes of the memories. -/

namespace Sys2Proof

@[simp] theorem Config.default_contentBytes : Config.default.contentBytes = 17 := rfl

/-- R4: the defaults meet both constraints. -/
theorem Config.default_valid : Config.default.Valid := ⟨by decide, by decide⟩

/-- The defaults are what the formats presuppose. -/
theorem Config.default_fits : Config.default.Fits := by constructor <;> decide

end Sys2Proof

namespace Sys2Proof.Machine

variable {p : Config}

@[simp] theorem capacity_normal (p : Config) : capacity p .normal = p.nNormal := rfl
@[simp] theorem capacity_emergency (p : Config) : capacity p .emergency = p.nEmergency := rfl

/-- Un-escaping undoes escaping (R54, R105). -/
theorem mask_mask (p : Config) (b : Byte) : b ^^^ p.mask ^^^ p.mask = b := by
  rw [BitVec.xor_assoc, BitVec.xor_self, BitVec.xor_zero]

/-- `is_marker` (R5). -/
theorem isMarker_iff (p : Config) (b : Byte) : isMarker p b = true ↔ b = p.sof ∨ b = p.eof ∨ b = p.esc := by
  simp [isMarker, or_assoc]

theorem isMarker_false_iff (p : Config) (b : Byte) : isMarker p b = false ↔ b ≠ p.sof ∧ b ≠ p.eof ∧ b ≠ p.esc := by
  rw [← Bool.not_eq_true, isMarker_iff]; tauto

/-- R4: a marker XOR the mask is not itself a marker. -/
theorem masked_marker_is_no_marker (hv : p.Valid) {b : Byte} (h : isMarker p b = true) :
    isMarker p (b ^^^ p.mask) = false := by
  have := hv.masked_no_marker b (by simpa using (isMarker_iff p b).mp h)
  simpa [isMarker_false_iff] using this

/-- The markers at the defaults (R4). -/
theorem isMarker_default_iff (b : Byte) : isMarker .default b = true ↔ b = 0x7E ∨ b = 0x7F ∨ b = 0x7D :=
  isMarker_iff .default b

theorem isMarker_default_false_iff (b : Byte) : isMarker .default b = false ↔ b ≠ 0x7E ∧ b ≠ 0x7F ∧ b ≠ 0x7D :=
  isMarker_false_iff .default b

/-- R57: a slot is its content bytes, the flag and the padding. -/
theorem contentBytes_add_two (hf : p.Fits) : p.contentBytes + 2 = p.slotBytes :=
  Nat.sub_add_cancel hf.slot_ge

/-- R10, R30: 133 and 57 bytes. -/
theorem slot_memory_sizes :
    Config.default.slotBytes * capacity .default .normal = 133 ∧
    Config.default.slotBytes * capacity .default .emergency = 57 := by decide

end Sys2Proof.Machine
end

