-- ==== Sys2Proof/Laws/Configured.lean ====
section
/-! SUPPORT. The machine handed to the host is the block with the parameters at the defaults (00_scope R4). -/

namespace Sys2Proof.Machine

theorem execAt_default (i : Instr) (s : State) : execAt .default i s = exec i s := by cases i <;> rfl

theorem stepAt_default (s : State) : stepAt .default s = step s := by
  unfold stepAt step
  cases fetch .default s <;> simp only [execAt_default]

theorem execAllAt_default (is : List Instr) (s : State) : execAllAt .default is s = execAll is s := by
  induction is generalizing s with
  | nil => rfl
  | cons i is ih =>
    simp only [execAllAt, execAll, execAt_default]
    cases exec i s <;> simp [andThen, ih]

theorem blockAt_default : blockAt .default = Sys2Proof.core := by
  simp only [blockAt, Sys2Proof.core, funext stepAt_default]; rfl

end Sys2Proof.Machine
end

