-- ==== Sys2Proof/Laws/State.lean ====
section
/-! SUPPORT. What each update of the state does to each field: one lemma per field per update, so that no later proof
unfolds a record update. -/

namespace Sys2Proof.Machine

variable (s : State)

/-! ### respond -/

@[simp] theorem respond_crc (r : List Byte) : (respond r s).crc = s.crc := rfl
@[simp] theorem respond_decInFrame (r : List Byte) : (respond r s).decInFrame = s.decInFrame := rfl
@[simp] theorem respond_decEscaping (r : List Byte) : (respond r s).decEscaping = s.decEscaping := rfl
@[simp] theorem respond_decBuf (r : List Byte) : (respond r s).decBuf = s.decBuf := rfl
@[simp] theorem respond_slotNormal (r : List Byte) : (respond r s).slotNormal = s.slotNormal := rfl
@[simp] theorem respond_wNormal (r : List Byte) : (respond r s).wNormal = s.wNormal := rfl
@[simp] theorem respond_dNormal (r : List Byte) : (respond r s).dNormal = s.dNormal := rfl
@[simp] theorem respond_slotEmergency (r : List Byte) : (respond r s).slotEmergency = s.slotEmergency := rfl
@[simp] theorem respond_wEmergency (r : List Byte) : (respond r s).wEmergency = s.wEmergency := rfl
@[simp] theorem respond_dEmergency (r : List Byte) : (respond r s).dEmergency = s.dEmergency := rfl
@[simp] theorem respond_input (r : List Byte) : (respond r s).input = s.input := rfl
@[simp] theorem respond_output (r : List Byte) : (respond r s).output = s.output ++ [r] := rfl

/-! ### respondEmpty -/

@[simp] theorem respondEmpty_crc : (respondEmpty s).crc = s.crc := rfl
@[simp] theorem respondEmpty_decInFrame : (respondEmpty s).decInFrame = s.decInFrame := rfl
@[simp] theorem respondEmpty_decEscaping : (respondEmpty s).decEscaping = s.decEscaping := rfl
@[simp] theorem respondEmpty_decBuf : (respondEmpty s).decBuf = s.decBuf := rfl
@[simp] theorem respondEmpty_slotNormal : (respondEmpty s).slotNormal = s.slotNormal := rfl
@[simp] theorem respondEmpty_wNormal : (respondEmpty s).wNormal = s.wNormal := rfl
@[simp] theorem respondEmpty_dNormal : (respondEmpty s).dNormal = s.dNormal := rfl
@[simp] theorem respondEmpty_slotEmergency : (respondEmpty s).slotEmergency = s.slotEmergency := rfl
@[simp] theorem respondEmpty_wEmergency : (respondEmpty s).wEmergency = s.wEmergency := rfl
@[simp] theorem respondEmpty_dEmergency : (respondEmpty s).dEmergency = s.dEmergency := rfl
@[simp] theorem respondEmpty_input : (respondEmpty s).input = s.input := rfl
@[simp] theorem respondEmpty_output : (respondEmpty s).output = s.output ++ [[]] := rfl

/-! ### noEvent -/

@[simp] theorem noEvent_crc : (noEvent s).crc = s.crc := rfl
@[simp] theorem noEvent_decInFrame : (noEvent s).decInFrame = s.decInFrame := rfl
@[simp] theorem noEvent_decEscaping : (noEvent s).decEscaping = s.decEscaping := rfl
@[simp] theorem noEvent_decBuf : (noEvent s).decBuf = s.decBuf := rfl
@[simp] theorem noEvent_slotNormal : (noEvent s).slotNormal = s.slotNormal := rfl
@[simp] theorem noEvent_wNormal : (noEvent s).wNormal = s.wNormal := rfl
@[simp] theorem noEvent_dNormal : (noEvent s).dNormal = s.dNormal := rfl
@[simp] theorem noEvent_slotEmergency : (noEvent s).slotEmergency = s.slotEmergency := rfl
@[simp] theorem noEvent_wEmergency : (noEvent s).wEmergency = s.wEmergency := rfl
@[simp] theorem noEvent_dEmergency : (noEvent s).dEmergency = s.dEmergency := rfl
@[simp] theorem noEvent_input : (noEvent s).input = s.input := rfl
@[simp] theorem noEvent_output : (noEvent s).output = s.output ++ [eventBytes .none] := rfl

/-! ### leaveFrame -/

@[simp] theorem leaveFrame_crc : (leaveFrame s).crc = s.crc := rfl
@[simp] theorem leaveFrame_decInFrame : (leaveFrame s).decInFrame = false := rfl
@[simp] theorem leaveFrame_decEscaping : (leaveFrame s).decEscaping = false := rfl
@[simp] theorem leaveFrame_decBuf : (leaveFrame s).decBuf = [] := rfl
@[simp] theorem leaveFrame_slotNormal : (leaveFrame s).slotNormal = s.slotNormal := rfl
@[simp] theorem leaveFrame_wNormal : (leaveFrame s).wNormal = s.wNormal := rfl
@[simp] theorem leaveFrame_dNormal : (leaveFrame s).dNormal = s.dNormal := rfl
@[simp] theorem leaveFrame_slotEmergency : (leaveFrame s).slotEmergency = s.slotEmergency := rfl
@[simp] theorem leaveFrame_wEmergency : (leaveFrame s).wEmergency = s.wEmergency := rfl
@[simp] theorem leaveFrame_dEmergency : (leaveFrame s).dEmergency = s.dEmergency := rfl
@[simp] theorem leaveFrame_input : (leaveFrame s).input = s.input := rfl
@[simp] theorem leaveFrame_output : (leaveFrame s).output = s.output := rfl

/-! ### enterFrame -/

@[simp] theorem enterFrame_crc : (enterFrame s).crc = s.crc := rfl
@[simp] theorem enterFrame_decInFrame : (enterFrame s).decInFrame = true := rfl
@[simp] theorem enterFrame_decEscaping : (enterFrame s).decEscaping = false := rfl
@[simp] theorem enterFrame_decBuf : (enterFrame s).decBuf = [] := rfl
@[simp] theorem enterFrame_slotNormal : (enterFrame s).slotNormal = s.slotNormal := rfl
@[simp] theorem enterFrame_wNormal : (enterFrame s).wNormal = s.wNormal := rfl
@[simp] theorem enterFrame_dNormal : (enterFrame s).dNormal = s.dNormal := rfl
@[simp] theorem enterFrame_slotEmergency : (enterFrame s).slotEmergency = s.slotEmergency := rfl
@[simp] theorem enterFrame_wEmergency : (enterFrame s).wEmergency = s.wEmergency := rfl
@[simp] theorem enterFrame_dEmergency : (enterFrame s).dEmergency = s.dEmergency := rfl
@[simp] theorem enterFrame_input : (enterFrame s).input = s.input := rfl
@[simp] theorem enterFrame_output : (enterFrame s).output = s.output := rfl

/-! ### takeReport -/

@[simp] theorem takeReport_crc (r : BadReason) : (takeReport r s).crc = s.crc := rfl
@[simp] theorem takeReport_decInFrame (r : BadReason) : (takeReport r s).decInFrame = false := rfl
@[simp] theorem takeReport_decEscaping (r : BadReason) : (takeReport r s).decEscaping = false := rfl
@[simp] theorem takeReport_decBuf (r : BadReason) : (takeReport r s).decBuf = [] := rfl
@[simp] theorem takeReport_slotNormal (r : BadReason) : (takeReport r s).slotNormal = s.slotNormal := rfl
@[simp] theorem takeReport_wNormal (r : BadReason) : (takeReport r s).wNormal = s.wNormal := rfl
@[simp] theorem takeReport_dNormal (r : BadReason) : (takeReport r s).dNormal = s.dNormal := rfl
@[simp] theorem takeReport_slotEmergency (r : BadReason) : (takeReport r s).slotEmergency = s.slotEmergency := rfl
@[simp] theorem takeReport_wEmergency (r : BadReason) : (takeReport r s).wEmergency = s.wEmergency := rfl
@[simp] theorem takeReport_dEmergency (r : BadReason) : (takeReport r s).dEmergency = s.dEmergency := rfl
@[simp] theorem takeReport_input (r : BadReason) : (takeReport r s).input = s.input := rfl
@[simp] theorem takeReport_output (r : BadReason) : (takeReport r s).output = s.output ++ [eventBytes (.bad r)] := rfl

/-! ### deliverFrame -/

@[simp] theorem deliverFrame_crc (f : Frame) : (deliverFrame f s).crc = s.crc := rfl
@[simp] theorem deliverFrame_decInFrame (f : Frame) : (deliverFrame f s).decInFrame = false := rfl
@[simp] theorem deliverFrame_decEscaping (f : Frame) : (deliverFrame f s).decEscaping = false := rfl
@[simp] theorem deliverFrame_decBuf (f : Frame) : (deliverFrame f s).decBuf = [] := rfl
@[simp] theorem deliverFrame_slotNormal (f : Frame) : (deliverFrame f s).slotNormal = s.slotNormal := rfl
@[simp] theorem deliverFrame_wNormal (f : Frame) : (deliverFrame f s).wNormal = s.wNormal := rfl
@[simp] theorem deliverFrame_dNormal (f : Frame) : (deliverFrame f s).dNormal = s.dNormal := rfl
@[simp] theorem deliverFrame_slotEmergency (f : Frame) : (deliverFrame f s).slotEmergency = s.slotEmergency := rfl
@[simp] theorem deliverFrame_wEmergency (f : Frame) : (deliverFrame f s).wEmergency = s.wEmergency := rfl
@[simp] theorem deliverFrame_dEmergency (f : Frame) : (deliverFrame f s).dEmergency = s.dEmergency := rfl
@[simp] theorem deliverFrame_input (f : Frame) : (deliverFrame f s).input = s.input := rfl
@[simp] theorem deliverFrame_output (f : Frame) :
    (deliverFrame f s).output = s.output ++ [eventBytes (.frame f)] := rfl

/-! ### answerIllegal -/

@[simp] theorem answerIllegal_crc : (answerIllegal s).crc = s.crc := rfl
@[simp] theorem answerIllegal_decInFrame : (answerIllegal s).decInFrame = s.decInFrame := rfl
@[simp] theorem answerIllegal_decEscaping : (answerIllegal s).decEscaping = s.decEscaping := rfl
@[simp] theorem answerIllegal_decBuf : (answerIllegal s).decBuf = s.decBuf := rfl
@[simp] theorem answerIllegal_slotNormal : (answerIllegal s).slotNormal = s.slotNormal := rfl
@[simp] theorem answerIllegal_wNormal : (answerIllegal s).wNormal = s.wNormal := rfl
@[simp] theorem answerIllegal_dNormal : (answerIllegal s).dNormal = s.dNormal := rfl
@[simp] theorem answerIllegal_slotEmergency : (answerIllegal s).slotEmergency = s.slotEmergency := rfl
@[simp] theorem answerIllegal_wEmergency : (answerIllegal s).wEmergency = s.wEmergency := rfl
@[simp] theorem answerIllegal_dEmergency : (answerIllegal s).dEmergency = s.dEmergency := rfl
@[simp] theorem answerIllegal_input : (answerIllegal s).input = s.input := rfl
@[simp] theorem answerIllegal_output : (answerIllegal s).output = s.output ++ [[illByte]] := rfl

/-! ### applyReset -/

@[simp] theorem applyReset_crc (p : Config) : (applyReset p s).crc = p.init := rfl
@[simp] theorem applyReset_decInFrame (p : Config) : (applyReset p s).decInFrame = false := rfl
@[simp] theorem applyReset_decEscaping (p : Config) : (applyReset p s).decEscaping = false := rfl
@[simp] theorem applyReset_decBuf (p : Config) : (applyReset p s).decBuf = [] := rfl
@[simp] theorem applyReset_slotNormal (p : Config) : (applyReset p s).slotNormal = [] := rfl
@[simp] theorem applyReset_wNormal (p : Config) : (applyReset p s).wNormal = 0 := rfl
@[simp] theorem applyReset_dNormal (p : Config) : (applyReset p s).dNormal = 0 := rfl
@[simp] theorem applyReset_slotEmergency (p : Config) : (applyReset p s).slotEmergency = [] := rfl
@[simp] theorem applyReset_wEmergency (p : Config) : (applyReset p s).wEmergency = 0 := rfl
@[simp] theorem applyReset_dEmergency (p : Config) : (applyReset p s).dEmergency = 0 := rfl
@[simp] theorem applyReset_input (p : Config) : (applyReset p s).input = s.input := rfl
@[simp] theorem applyReset_output (p : Config) : (applyReset p s).output = s.output := rfl

/-! ### block -/

@[simp] theorem State.block_crc : s.block.crc = s.crc := rfl
@[simp] theorem State.block_decInFrame : s.block.decInFrame = s.decInFrame := rfl
@[simp] theorem State.block_decEscaping : s.block.decEscaping = s.decEscaping := rfl
@[simp] theorem State.block_decBuf : s.block.decBuf = s.decBuf := rfl
@[simp] theorem State.block_slotNormal : s.block.slotNormal = s.slotNormal := rfl
@[simp] theorem State.block_wNormal : s.block.wNormal = s.wNormal := rfl
@[simp] theorem State.block_dNormal : s.block.dNormal = s.dNormal := rfl
@[simp] theorem State.block_slotEmergency : s.block.slotEmergency = s.slotEmergency := rfl
@[simp] theorem State.block_wEmergency : s.block.wEmergency = s.wEmergency := rfl
@[simp] theorem State.block_dEmergency : s.block.dEmergency = s.dEmergency := rfl
@[simp] theorem State.block_input : s.block.input = [] := rfl
@[simp] theorem State.block_output : s.block.output = [] := rfl

/-! ### setSlots -/

@[simp] theorem State.setSlots_crc (k : MsgClass) (m : Memory) :
    (s.setSlots k m).crc = s.crc := by cases k <;> rfl
@[simp] theorem State.setSlots_decInFrame (k : MsgClass) (m : Memory) :
    (s.setSlots k m).decInFrame = s.decInFrame := by cases k <;> rfl
@[simp] theorem State.setSlots_decEscaping (k : MsgClass) (m : Memory) :
    (s.setSlots k m).decEscaping = s.decEscaping := by cases k <;> rfl
@[simp] theorem State.setSlots_decBuf (k : MsgClass) (m : Memory) :
    (s.setSlots k m).decBuf = s.decBuf := by cases k <;> rfl
@[simp] theorem State.setSlots_input (k : MsgClass) (m : Memory) :
    (s.setSlots k m).input = s.input := by cases k <;> rfl
@[simp] theorem State.setSlots_output (k : MsgClass) (m : Memory) :
    (s.setSlots k m).output = s.output := by cases k <;> rfl
@[simp] theorem State.setSlots_wNormal (k : MsgClass) (m : Memory) :
    (s.setSlots k m).wNormal = s.wNormal := by cases k <;> rfl
@[simp] theorem State.setSlots_dNormal (k : MsgClass) (m : Memory) :
    (s.setSlots k m).dNormal = s.dNormal := by cases k <;> rfl
@[simp] theorem State.setSlots_wEmergency (k : MsgClass) (m : Memory) :
    (s.setSlots k m).wEmergency = s.wEmergency := by cases k <;> rfl
@[simp] theorem State.setSlots_dEmergency (k : MsgClass) (m : Memory) :
    (s.setSlots k m).dEmergency = s.dEmergency := by cases k <;> rfl

/-! ### setW -/

@[simp] theorem State.setW_crc (k : MsgClass) (n : Nat) :
    (s.setW k n).crc = s.crc := by cases k <;> rfl
@[simp] theorem State.setW_decInFrame (k : MsgClass) (n : Nat) :
    (s.setW k n).decInFrame = s.decInFrame := by cases k <;> rfl
@[simp] theorem State.setW_decEscaping (k : MsgClass) (n : Nat) :
    (s.setW k n).decEscaping = s.decEscaping := by cases k <;> rfl
@[simp] theorem State.setW_decBuf (k : MsgClass) (n : Nat) :
    (s.setW k n).decBuf = s.decBuf := by cases k <;> rfl
@[simp] theorem State.setW_input (k : MsgClass) (n : Nat) :
    (s.setW k n).input = s.input := by cases k <;> rfl
@[simp] theorem State.setW_output (k : MsgClass) (n : Nat) :
    (s.setW k n).output = s.output := by cases k <;> rfl
@[simp] theorem State.setW_slotNormal (k : MsgClass) (n : Nat) :
    (s.setW k n).slotNormal = s.slotNormal := by cases k <;> rfl
@[simp] theorem State.setW_dNormal (k : MsgClass) (n : Nat) :
    (s.setW k n).dNormal = s.dNormal := by cases k <;> rfl
@[simp] theorem State.setW_slotEmergency (k : MsgClass) (n : Nat) :
    (s.setW k n).slotEmergency = s.slotEmergency := by cases k <;> rfl
@[simp] theorem State.setW_dEmergency (k : MsgClass) (n : Nat) :
    (s.setW k n).dEmergency = s.dEmergency := by cases k <;> rfl

/-! ### setD -/

@[simp] theorem State.setD_crc (k : MsgClass) (n : Nat) :
    (s.setD k n).crc = s.crc := by cases k <;> rfl
@[simp] theorem State.setD_decInFrame (k : MsgClass) (n : Nat) :
    (s.setD k n).decInFrame = s.decInFrame := by cases k <;> rfl
@[simp] theorem State.setD_decEscaping (k : MsgClass) (n : Nat) :
    (s.setD k n).decEscaping = s.decEscaping := by cases k <;> rfl
@[simp] theorem State.setD_decBuf (k : MsgClass) (n : Nat) :
    (s.setD k n).decBuf = s.decBuf := by cases k <;> rfl
@[simp] theorem State.setD_input (k : MsgClass) (n : Nat) :
    (s.setD k n).input = s.input := by cases k <;> rfl
@[simp] theorem State.setD_output (k : MsgClass) (n : Nat) :
    (s.setD k n).output = s.output := by cases k <;> rfl
@[simp] theorem State.setD_slotNormal (k : MsgClass) (n : Nat) :
    (s.setD k n).slotNormal = s.slotNormal := by cases k <;> rfl
@[simp] theorem State.setD_wNormal (k : MsgClass) (n : Nat) :
    (s.setD k n).wNormal = s.wNormal := by cases k <;> rfl
@[simp] theorem State.setD_slotEmergency (k : MsgClass) (n : Nat) :
    (s.setD k n).slotEmergency = s.slotEmergency := by cases k <;> rfl
@[simp] theorem State.setD_wEmergency (k : MsgClass) (n : Nat) :
    (s.setD k n).wEmergency = s.wEmergency := by cases k <;> rfl

/-! ### The registers of one ring buffer, seen by class -/

@[simp] theorem respond_slots (r : List Byte) (k : MsgClass) : (respond r s).slots k = s.slots k := by
  cases k <;> rfl
@[simp] theorem respond_wCursor (r : List Byte) (k : MsgClass) : (respond r s).wCursor k = s.wCursor k := by
  cases k <;> rfl
@[simp] theorem respond_dCursor (r : List Byte) (k : MsgClass) : (respond r s).dCursor k = s.dCursor k := by
  cases k <;> rfl
@[simp] theorem respondEmpty_slots (k : MsgClass) : (respondEmpty s).slots k = s.slots k := by
  cases k <;> rfl
@[simp] theorem respondEmpty_wCursor (k : MsgClass) : (respondEmpty s).wCursor k = s.wCursor k := by
  cases k <;> rfl
@[simp] theorem respondEmpty_dCursor (k : MsgClass) : (respondEmpty s).dCursor k = s.dCursor k := by
  cases k <;> rfl
@[simp] theorem noEvent_slots (k : MsgClass) : (noEvent s).slots k = s.slots k := by
  cases k <;> rfl
@[simp] theorem noEvent_wCursor (k : MsgClass) : (noEvent s).wCursor k = s.wCursor k := by
  cases k <;> rfl
@[simp] theorem noEvent_dCursor (k : MsgClass) : (noEvent s).dCursor k = s.dCursor k := by
  cases k <;> rfl
@[simp] theorem leaveFrame_slots (k : MsgClass) : (leaveFrame s).slots k = s.slots k := by
  cases k <;> rfl
@[simp] theorem leaveFrame_wCursor (k : MsgClass) : (leaveFrame s).wCursor k = s.wCursor k := by
  cases k <;> rfl
@[simp] theorem leaveFrame_dCursor (k : MsgClass) : (leaveFrame s).dCursor k = s.dCursor k := by
  cases k <;> rfl
@[simp] theorem enterFrame_slots (k : MsgClass) : (enterFrame s).slots k = s.slots k := by
  cases k <;> rfl
@[simp] theorem enterFrame_wCursor (k : MsgClass) : (enterFrame s).wCursor k = s.wCursor k := by
  cases k <;> rfl
@[simp] theorem enterFrame_dCursor (k : MsgClass) : (enterFrame s).dCursor k = s.dCursor k := by
  cases k <;> rfl
@[simp] theorem takeReport_slots (r : BadReason) (k : MsgClass) : (takeReport r s).slots k = s.slots k := by
  cases k <;> rfl
@[simp] theorem takeReport_wCursor (r : BadReason) (k : MsgClass) : (takeReport r s).wCursor k = s.wCursor k := by
  cases k <;> rfl
@[simp] theorem takeReport_dCursor (r : BadReason) (k : MsgClass) : (takeReport r s).dCursor k = s.dCursor k := by
  cases k <;> rfl
@[simp] theorem deliverFrame_slots (f : Frame) (k : MsgClass) : (deliverFrame f s).slots k = s.slots k := by
  cases k <;> rfl
@[simp] theorem deliverFrame_wCursor (f : Frame) (k : MsgClass) : (deliverFrame f s).wCursor k = s.wCursor k := by
  cases k <;> rfl
@[simp] theorem deliverFrame_dCursor (f : Frame) (k : MsgClass) : (deliverFrame f s).dCursor k = s.dCursor k := by
  cases k <;> rfl
@[simp] theorem answerIllegal_slots (k : MsgClass) : (answerIllegal s).slots k = s.slots k := by
  cases k <;> rfl
@[simp] theorem answerIllegal_wCursor (k : MsgClass) : (answerIllegal s).wCursor k = s.wCursor k := by
  cases k <;> rfl
@[simp] theorem answerIllegal_dCursor (k : MsgClass) : (answerIllegal s).dCursor k = s.dCursor k := by
  cases k <;> rfl

theorem State.slots_setSlots (k k' : MsgClass) (m : Memory) :
    (s.setSlots k m).slots k' = if k' = k then m else s.slots k' := by
  cases k <;> cases k' <;> rfl
@[simp] theorem State.slots_setSlots_self (k : MsgClass) (m : Memory) : (s.setSlots k m).slots k = m := by
  cases k <;> rfl
@[simp] theorem State.wCursor_setSlots (k k' : MsgClass) (m : Memory) :
    (s.setSlots k m).wCursor k' = s.wCursor k' := by cases k <;> cases k' <;> rfl
@[simp] theorem State.dCursor_setSlots (k k' : MsgClass) (m : Memory) :
    (s.setSlots k m).dCursor k' = s.dCursor k' := by cases k <;> cases k' <;> rfl
@[simp] theorem State.slots_setW (k k' : MsgClass) (n : Nat) : (s.setW k n).slots k' = s.slots k' := by
  cases k <;> cases k' <;> rfl
@[simp] theorem State.dCursor_setW (k k' : MsgClass) (n : Nat) : (s.setW k n).dCursor k' = s.dCursor k' := by
  cases k <;> cases k' <;> rfl
@[simp] theorem State.slots_setD (k k' : MsgClass) (n : Nat) : (s.setD k n).slots k' = s.slots k' := by
  cases k <;> cases k' <;> rfl
@[simp] theorem State.wCursor_setD (k k' : MsgClass) (n : Nat) : (s.setD k n).wCursor k' = s.wCursor k' := by
  cases k <;> cases k' <;> rfl

/-- A cursor in range fits its register (R10, R19, R20). -/
theorem capacity_le {p : Config} (hf : p.Fits) (k : MsgClass) :
    capacity p k ≤ 2 ^ (match k with | .normal => 3 | .emergency => 2) := by
  cases k
  · exact hf.normal.2
  · exact hf.emergency.2

/-- A cursor in range is read back as it was written (R21: the registers hold values past the range too). -/
theorem State.wCursor_setW {p : Config} (hf : p.Fits) (k k' : MsgClass) {n : Nat} (h : n < capacity p k) :
    (s.setW k n).wCursor k' = if k' = k then n else s.wCursor k' := by
  have hn := Nat.lt_of_lt_of_le h (capacity_le hf k)
  cases k <;> cases k' <;> simp [State.setW, State.wCursor] at * <;> omega

theorem State.dCursor_setD {p : Config} (hf : p.Fits) (k k' : MsgClass) {n : Nat} (h : n < capacity p k) :
    (s.setD k n).dCursor k' = if k' = k then n else s.dCursor k' := by
  have hn := Nat.lt_of_lt_of_le h (capacity_le hf k)
  cases k <;> cases k' <;> simp [State.setD, State.dCursor] at * <;> omega

end Sys2Proof.Machine
end

