-- ==== Sys2Proof/Laws/Decoder.lean ====
section
/-! SUPPORT. The decoder: one equation per case of DEC_BYTE, the append as one state, and what a byte can do. -/

namespace Sys2Proof.Machine

variable {p : Config}

/-- R110 in a state whose buffer is within its capacity. -/
theorem appendByte_eq (v : Byte) {s : State} (h : s.AccOk p) : appendByte p v s = .next (afterAppend p v s) := by
  unfold State.AccOk at h
  unfold appendByte afterAppend
  by_cases hlt : s.decBuf.length < p.maxAcc
  · rw [if_pos hlt, if_pos hlt]; rfl
  · rw [if_neg hlt, if_pos (by omega), if_neg hlt]; rfl

theorem appendByte_refused (v : Byte) {s : State} (h : ¬ s.AccOk p) :
    appendByte p v s = .refused .accLenOutOfRange := by
  unfold State.AccOk at h
  unfold appendByte
  rw [if_neg (by omega), if_neg (by omega)]

/-! ## The six cases (R102) -/

theorem consume_out {b : Byte} {s : State} (h : s.decInFrame = false) :
    consume p b s = if b = p.sof then outSof s else outOther s := by simp [consume, h]

theorem consume_escaping {b : Byte} {s : State} (h : s.decInFrame = true) (he : s.decEscaping = true) :
    consume p b s = inEscaping p b s := by simp [consume, h, he]

theorem consume_esc {s : State} (h : s.decInFrame = true) (he : s.decEscaping = false) :
    consume p p.esc s = inEsc s := by simp [consume, h, he]

theorem consume_sof (hv : p.Valid) {s : State} (h : s.decInFrame = true) (he : s.decEscaping = false) :
    consume p p.sof s = inSof s := by
  simp [consume, h, he, hv.markers_differ.2.1]

theorem consume_eof (hv : p.Valid) {s : State} (h : s.decInFrame = true) (he : s.decEscaping = false) :
    consume p p.eof s = inEof p s := by
  simp [consume, h, he, hv.markers_differ.2.2, hv.markers_differ.1.symm]

theorem consume_data {b : Byte} {s : State} (h : s.decInFrame = true) (he : s.decEscaping = false)
    (hb : isMarker p b = false) : consume p b s = inData p b s := by
  rw [isMarker_false_iff] at hb
  simp [consume, h, he, hb]

/-- R100: a received byte is answered by exactly one response. -/
theorem consume_response {b : Byte} {s t : State} (h : consume p b s = .next t) :
    ∃ r, t.output = s.output ++ [r] := by
  have happ : ∀ (v : Byte) (u : State), u.output = s.output → appendByte p v u = .next t →
      ∃ r, t.output = s.output ++ [r] := by
    intro v u hu hh
    by_cases ho : u.AccOk p
    · rw [appendByte_eq v ho] at hh
      cases hh
      unfold afterAppend
      split <;> exact ⟨_, by rw [← hu]⟩
    · rw [appendByte_refused v ho] at hh; cases hh
  unfold consume at h
  split at h
  · split at h <;> cases h <;> exact ⟨_, rfl⟩
  split at h
  · exact happ (b ^^^ p.mask) { s with decEscaping := false } rfl h
  split at h
  · cases h; exact ⟨_, rfl⟩
  split at h
  · cases h; exact ⟨_, rfl⟩
  split at h
  · unfold inEof at h
    split at h
    · split at h <;> cases h <;> exact ⟨_, rfl⟩
    · cases h
  · exact happ b s rfl h

/-! ## The parse (R120) -/

theorem join16_eq (hi lo : Byte) : join16 hi lo = (hi.setWidth 16 <<< 8) ||| lo.setWidth 16 := rfl

/-- A byte pair read big-endian gives back its bytes. -/
theorem hiByte_join16 (hi lo : Byte) : hiByte (join16 hi lo) = hi := by
  ext i h
  simp only [hiByte, join16, BitVec.getElem_setWidth, BitVec.getLsbD_ushiftRight, BitVec.getLsbD_or,
    BitVec.getLsbD_shiftLeft, BitVec.getLsbD_setWidth]
  simp [show 8 + i < 16 by omega, show i < 16 by omega, ← BitVec.getLsbD_eq_getElem]

theorem loByte_join16 (hi lo : Byte) : loByte (join16 hi lo) = lo := by
  ext i h
  simp [loByte, join16]

theorem join16_hi_lo (c : Word16) : join16 (hiByte c) (loByte c) = c := by
  ext i h
  simp only [hiByte, loByte, join16, BitVec.getElem_or, BitVec.getElem_shiftLeft, BitVec.getElem_setWidth,
    BitVec.getLsbD_setWidth, BitVec.getLsbD_ushiftRight]
  by_cases hi : i < 8
  · simp [hi, ← BitVec.getLsbD_eq_getElem]
  · simp [hi, show i - 8 < 8 by omega, show 8 + (i - 8) = i by omega, ← BitVec.getLsbD_eq_getElem]

theorem hiByte_eq_extract (c : Word16) : hiByte c = c.extractLsb' 8 8 := by
  ext i h
  simp [hiByte]

theorem loByte_eq_extract (c : Word16) : loByte c = c.extractLsb' 0 8 := by
  ext i h
  simp [loByte]

end Sys2Proof.Machine
end

