-- ==== Sys2Proof/Laws/Decode.lean ====
section
/-! SUPPORT. Facts of the encoding tables: the rows of R61 do not meet, the unassigned codes of R64 are the rest, a code
byte is its operation's code with its class bit, and each table read by value gives back the value it was read by. -/

namespace Sys2Proof

/-- No code byte is matched by two rows of R61's table. -/
theorem opTable_rows_disjoint :
    opTable.Pairwise (fun r r' => ∀ op : Byte, (r.matches op && r'.matches op) = false) := by decide +kernel

/-- R64's list is exactly the code bytes without a row. -/
theorem unassigned_iff : ∀ op : Byte, Machine.UnassignedCode op ↔ lookupOp op = none := by
  unfold Machine.UnassignedCode; decide +kernel

/-- The code byte of an operation with its class (R60, R61); the class counts for ring-buffer operations only. -/
def codeOf (k : MsgClass) : Opcode → Byte
  | .crcInit => 0x00
  | .crcByte => 0x01
  | .crcRead => 0x02
  | .stuff => 0x10
  | .encFrame => 0x11
  | .decReset => 0x20
  | .decByte => 0x21
  | .rbInit => 0x30 ||| classBit k
  | .rbAdd => 0x31 ||| classBit k
  | .rbFind => 0x32 ||| classBit k
  | .rbAdv => 0x33 ||| classBit k
  | .rbCount => 0x34 ||| classBit k
  | .rbRstd => 0x35 ||| classBit k
  | .rbRead => 0x36 ||| classBit k

theorem lookupOp_codeOf (k : MsgClass) (o : Opcode) : lookupOp (codeOf k o) = some o := by
  cases k <;> cases o <;> decide +kernel

theorem eq_codeOf_of_lookupOp {op : Byte} {o : Opcode} (h : lookupOp op = some o) : op = codeOf (classOf op) o := by
  have all : ∀ op : Byte, (lookupOp op).all (fun o => op == codeOf (classOf op) o) = true := by decide +kernel
  have := all op
  rw [h] at this
  simpa using this

/-- Operand bytes never make a code unassigned. -/
theorem decodeOperands_ne_unassigned (p : Config) (op op' : Byte) (bytes : List Byte) (o : Opcode) :
    decodeOperands p op bytes o ≠ .rejected (.unassigned op') := by
  cases o <;> simp only [decodeOperands, ne_eq, reduceCtorEq, not_false_iff]
  all_goals first
    | (unfold oneByteOp; split <;> simp)
    | (unfold frameOp; split <;> [split <;> simp; simp])
    | (unfold slotOp; split <;> simp)

theorem reasonOf_reasonCode (r : BadReason) : reasonOf (reasonCode r) = some r := by cases r <;> decide

theorem reasonCode_of_reasonOf {c : Byte} {r : BadReason} (h : reasonOf c = some r) : c = reasonCode r := by
  unfold reasonOf at h
  repeat' split at h
  all_goals cases h
  all_goals assumption

/-- A TYPE value by its row (R150). -/
theorem encode_of_typeOf {p : Config} {b : Byte} {i : Instr} (h : typeOf b = some i) :
    encode p i = [b] ∧ i.kind = .frameType ∧ i.wellFormed p = true := by
  unfold typeOf at h
  repeat' split at h
  all_goals cases h
  all_goals exact ⟨by simp only [encode, *], rfl, rfl⟩

/-- An escape pair by its second byte (R54). -/
theorem encode_of_pairOf {p : Config} {x : Byte} {i : Instr} (h : pairOf p x = some i) :
    encode p i = [p.esc, x] ∧ i.kind = .wirePair ∧ i.wellFormed p = true := by
  unfold pairOf at h
  repeat' split at h
  all_goals cases h
  all_goals exact ⟨by simp only [encode, *], rfl, rfl⟩

/-- The class of a byte by its value (R55). -/
theorem encode_classify (p : Config) (b : Byte) :
    encode p (classify p b) = [b] ∧ (classify p b).kind = .wireByte ∧ (classify p b).wellFormed p = true := by
  unfold classify
  split
  · exact ⟨by simp only [encode, *], rfl, rfl⟩
  split
  · exact ⟨by simp only [encode, *], rfl, rfl⟩
  split
  · exact ⟨by simp only [encode, *], rfl, rfl⟩
  · refine ⟨rfl, rfl, ?_⟩
    simp only [Instr.wellFormed, Bool.not_eq_true', Machine.isMarker_false_iff]
    exact ⟨‹_›, ‹_›, ‹_›⟩

theorem toNat_byteOf {n : Nat} (h : n < 256) : (byteOf n).toNat = n := by
  simp only [byteOf, BitVec.toNat_ofNat]; exact Nat.mod_eq_of_lt h

theorem byteOf_toNat (b : Byte) : byteOf b.toNat = b := by simp [byteOf]

namespace Machine

/-- What is left of a chunk stands in front of the rest of the input; a chunk with nothing left is gone. -/
theorem chunkLeft_eq (mk : List Byte → Input) (rest : List Byte) (later : List Input) :
    chunkLeft mk rest later = if rest = [] then later else mk rest :: later := by
  cases rest <;> rfl

end Machine

end Sys2Proof
end

