-- ==== Sys2Proof/Laws/Memory.lean ====
section
/-! SUPPORT. Laws of the slot memories: a read after a write, every other byte unchanged, the canonical form kept, the
addresses kept in range. None but the canonical form needs a premise on the memory. -/

namespace Sys2Proof.Machine

@[simp] theorem Memory.read_nil (a : Nat) : Memory.read [] a = 0x00 := rfl

theorem Memory.read_cons (b : Nat) (v : Byte) (m : Memory) (a : Nat) :
    Memory.read ((b, v) :: m) a = if a < b then 0x00 else if a = b then v else m.read a := rfl

/-- Dropping the entries up to `a` leaves every address above `a` as it reads, and hides the rest. -/
theorem Memory.read_dropWhile (m : Memory) (a x : Nat) :
    Memory.read (m.dropWhile (fun c => decide (c.1 ≤ a))) x = if x ≤ a then 0x00 else m.read x := by
  induction m with
  | nil => simp
  | cons c m ih =>
    obtain ⟨b, v⟩ := c
    by_cases hb : b ≤ a
    · simp only [List.dropWhile_cons, hb, decide_true, if_true, ih, Memory.read_cons]
      by_cases hx : x ≤ a
      · simp [hx]
      · simp only [hx, if_false]
        rw [if_neg (by omega), if_neg (by omega)]
    · simp only [List.dropWhile_cons, hb, decide_false, Bool.false_eq_true, if_false, Memory.read_cons]
      by_cases hx : x ≤ a
      · rw [if_pos (by omega), if_pos hx]
      · rw [if_neg hx]

theorem Memory.read_put_above (m : Memory) {a x : Nat} (v : Byte) (hx : a < x) :
    Memory.read (Memory.put a v m) x = m.read x := by
  unfold Memory.put
  split
  · rfl
  · rw [Memory.read_cons, if_neg (by omega), if_neg (by omega)]

/-- Read after write: the byte written at its address, every other byte as before. -/
theorem Memory.read_write (m : Memory) (a : Nat) (v : Byte) (x : Nat) :
    (m.write a v).read x = if x = a then v else m.read x := by
  induction m with
  | nil =>
    show Memory.read (Memory.put a v []) x = _
    unfold Memory.put
    split
    · rename_i hv; simp [hv, Memory.unlisted]
    · rw [Memory.read_cons]
      by_cases hx : x = a
      · simp [hx]
      · simp [hx]
  | cons c m ih =>
    obtain ⟨b, u⟩ := c
    unfold Memory.write
    split
    · rename_i hab
      unfold Memory.put
      split
      · rename_i hv
        by_cases hx : x = a
        · subst hx; simp [Memory.read_cons, hab, hv, Memory.unlisted]
        · simp [hx]
      · rw [Memory.read_cons a v]
        by_cases hx : x = a
        · simp [hx]
        · by_cases hlt : x < a
          · rw [if_pos hlt, if_neg hx, Memory.read_cons, if_pos (by omega)]
          · rw [if_neg hlt]
    · split
      · rename_i hab
        subst hab
        by_cases hx : x = a
        · subst hx
          unfold Memory.put
          split
          · rename_i hv; rw [Memory.read_dropWhile]; simp [hv, Memory.unlisted]
          · simp [Memory.read_cons]
        · rw [if_neg hx, Memory.read_cons]
          unfold Memory.put
          split
          · rw [Memory.read_dropWhile]
            by_cases hlt : x < a
            · rw [if_pos (by omega), if_pos hlt]
            · rw [if_neg (by omega), if_neg hlt]
          · rw [Memory.read_cons, Memory.read_dropWhile]
            by_cases hlt : x < a
            · rw [if_pos hlt, if_pos hlt]
            · rw [if_neg hlt, if_neg hx, if_neg (by omega), if_neg hlt]
      · rename_i h1 h2
        rw [Memory.read_cons, Memory.read_cons, ih]
        by_cases hx : x = a
        · subst hx; simp [h1, h2]
        · simp [hx]

/-- Bytes written at rising addresses: each reads back, every byte outside reads as before. -/
theorem Memory.read_writeBytes (vs : List Byte) (m : Memory) (a x : Nat) :
    (m.writeBytes a vs).read x = if a ≤ x ∧ x < a + vs.length then vs.getD (x - a) 0x00 else m.read x := by
  induction vs generalizing m a with
  | nil => simp [Memory.writeBytes]
  | cons v vs ih =>
    rw [Memory.writeBytes, ih, Memory.read_write]
    by_cases h : a + 1 ≤ x ∧ x < a + 1 + vs.length
    · rw [if_pos h, if_pos (by simp; omega)]
      obtain ⟨d, rfl⟩ : ∃ d, x = a + (d + 1) := ⟨x - a - 1, by omega⟩
      simp [show a + (d + 1) - (a + 1) = d by omega, show a + (d + 1) - a = d + 1 by omega]
    · rw [if_neg h]
      by_cases hx : x = a
      · subst hx; simp
      · rw [if_neg hx, if_neg (by simp; omega)]

/-! ## The canonical form -/

theorem Memory.wfAbove_mono {m : Memory} {a b : Nat} (h : a ≤ b) (hm : m.wfAbove b = true) : m.wfAbove a = true := by
  cases m with
  | nil => rfl
  | cons c m =>
    simp only [Memory.wfAbove, Bool.and_eq_true, decide_eq_true_eq] at *
    exact ⟨⟨by omega, hm.1.2⟩, hm.2⟩

theorem Memory.wf_of_wfAbove {m : Memory} {a : Nat} (h : m.wfAbove a = true) : m.wf = true := by
  cases m with
  | nil => rfl
  | cons c m =>
    simp only [Memory.wfAbove, Memory.wf, Bool.and_eq_true] at *
    exact ⟨h.1.2, h.2⟩

theorem Memory.wfAbove_put {m : Memory} {a l : Nat} (v : Byte) (hl : l < a) (hm : m.wfAbove a = true) :
    (Memory.put a v m).wfAbove l = true := by
  unfold Memory.put
  split
  · exact Memory.wfAbove_mono (by omega) hm
  · simp [Memory.wfAbove, *]

theorem Memory.dropWhile_of_wfAbove {m : Memory} {a : Nat} (hm : m.wfAbove a = true) :
    m.dropWhile (fun c => decide (c.1 ≤ a)) = m := by
  cases m with
  | nil => rfl
  | cons c m =>
    simp only [Memory.wfAbove, Bool.and_eq_true, decide_eq_true_eq] at hm
    rw [List.dropWhile_cons, if_neg (by simp; omega)]

theorem Memory.wfAbove_write {m : Memory} {a l : Nat} (v : Byte) (hl : l < a) (hm : m.wfAbove l = true) :
    (m.write a v).wfAbove l = true := by
  induction m generalizing l with
  | nil => exact Memory.wfAbove_put v hl rfl
  | cons c m ih =>
    obtain ⟨b, u⟩ := c
    simp only [Memory.wfAbove, Bool.and_eq_true, decide_eq_true_eq] at hm
    unfold Memory.write
    split
    · exact Memory.wfAbove_put v hl (by simp [Memory.wfAbove, *])
    · split
      · rename_i hab
        subst hab
        rw [Memory.dropWhile_of_wfAbove hm.2]
        exact Memory.wfAbove_put v hl hm.2
      · simp only [Memory.wfAbove, Bool.and_eq_true, decide_eq_true_eq]
        exact ⟨hm.1, ih (by omega) hm.2⟩

/-- A write keeps the canonical form. -/
theorem Memory.wf_write {m : Memory} (a : Nat) (v : Byte) (hm : m.wf = true) : (m.write a v).wf = true := by
  cases m with
  | nil => unfold Memory.write Memory.put; split <;> simp [Memory.wf, Memory.wfAbove, *]
  | cons c m =>
    obtain ⟨b, u⟩ := c
    simp only [Memory.wf, Bool.and_eq_true] at hm
    unfold Memory.write
    split
    · rename_i hab
      unfold Memory.put
      split
      · simp [Memory.wf, hm]
      · simp [Memory.wf, Memory.wfAbove, *]
    · split
      · rename_i hab
        subst hab
        rw [Memory.dropWhile_of_wfAbove hm.2]
        unfold Memory.put
        split
        · exact Memory.wf_of_wfAbove hm.2
        · simp [Memory.wf, *]
      · simp only [Memory.wf, Bool.and_eq_true]
        exact ⟨hm.1, Memory.wfAbove_write v (by omega) hm.2⟩

/-- Writing several bytes keeps the canonical form. -/
theorem Memory.wf_writeBytes (vs : List Byte) {m : Memory} (a : Nat) (hm : m.wf = true) :
    (m.writeBytes a vs).wf = true := by
  induction vs generalizing m a with
  | nil => exact hm
  | cons v vs ih => exact ih _ (Memory.wf_write a v hm)

theorem Memory.wf_zeroed : Memory.zeroed.wf = true := rfl

/-! ## The addresses -/

/-- A write lists no address but its own and the ones already listed. -/
theorem Memory.mem_write {m : Memory} {a : Nat} {v : Byte} {c : Host.Cell} (h : c ∈ m.write a v) :
    c.1 = a ∨ c ∈ m := by
  have hput : ∀ (m' : Memory), c ∈ Memory.put a v m' → c.1 = a ∨ c ∈ m' := by
    intro m' hc
    unfold Memory.put at hc
    split at hc
    · exact .inr hc
    · rcases List.mem_cons.mp hc with rfl | hc
      · exact .inl rfl
      · exact .inr hc
  induction m with
  | nil => exact hput [] h
  | cons d m ih =>
    obtain ⟨b, u⟩ := d
    unfold Memory.write at h
    split at h
    · exact hput _ h
    · split at h
      · rcases hput _ h with h | h
        · exact .inl h
        · exact .inr (List.mem_cons_of_mem _ ((List.dropWhile_sublist _).subset h))
      · rcases List.mem_cons.mp h with rfl | h
        · exact .inr (List.mem_cons_self ..)
        · rcases ih h with h | h
          · exact .inl h
          · exact .inr (List.mem_cons_of_mem _ h)

theorem Memory.mem_writeBytes {vs : List Byte} {m : Memory} {a : Nat} {c : Host.Cell} (h : c ∈ m.writeBytes a vs) :
    (a ≤ c.1 ∧ c.1 < a + vs.length) ∨ c ∈ m := by
  induction vs generalizing m a with
  | nil => exact .inr h
  | cons v vs ih =>
    rcases ih h with h | h
    · exact .inl ⟨by omega, by simp; omega⟩
    · rcases Memory.mem_write h with h | h
      · exact .inl ⟨by omega, by simp; omega⟩
      · exact .inr h

end Sys2Proof.Machine
end

