-- ==== Sys2Proof/Laws/Ring.lean ====
section
/-! SUPPORT. Cursors and slots of the ring buffers: the clamp, the wrap, what a slot read gives after an operation. -/

namespace Sys2Proof.Machine

variable {p : Config}

theorem capacity_pos (hf : p.Fits) (k : MsgClass) : 0 < capacity p k := by
  cases k
  · exact hf.normal.1
  · exact hf.emergency.1

theorem capacity_default_le_seven (k : MsgClass) : capacity .default k ≤ 7 := by cases k <;> decide

/-- R131: the clamped cursor is in range. -/
theorem clamp_lt (hf : p.Fits) (k : MsgClass) (c : Nat) : clamp p k c < capacity p k := by
  unfold clamp; split
  · assumption
  · exact capacity_pos hf k

theorem clamp_of_lt {k : MsgClass} {c : Nat} (h : c < capacity p k) : clamp p k c = c := if_pos h

theorem nextCursor_lt (hf : p.Fits) (k : MsgClass) (c : Nat) : nextCursor p k c < capacity p k :=
  Nat.mod_lt _ (capacity_pos hf k)

/-- R141: the wrap is a compare and reset. -/
theorem nextCursor_of_lt {k : MsgClass} {c : Nat} (h : c < capacity p k) :
    nextCursor p k c = if c + 1 = capacity p k then 0 else c + 1 := by
  unfold nextCursor
  split
  · rename_i he; rw [he, Nat.mod_self]
  · exact Nat.mod_eq_of_lt (by omega)

theorem slotImage_length (hf : p.Fits) (content : List Byte) : (slotImage p content).length = p.slotBytes := by
  simp [slotImage, contentBytes_add_two hf]

/-- The slot image of a full content operand (R133). -/
theorem slotImage_of_length {content : List Byte} (h : content.length = p.contentBytes) :
    slotImage p content = [p.enValue, 0x00] ++ content := by
  unfold slotImage
  congr 1
  apply List.ext_getElem
  · simp [h]
  · intro i h1 h2
    simp [List.getD_eq_getElem?_getD, List.getElem?_eq_getElem h2]

theorem slotBytes_length (s : State) (k : MsgClass) (j : Nat) : (s.slotBytes p k j).length = p.slotBytes := by
  simp [State.slotBytes]

theorem slotBytes_getElem? (s : State) (k : MsgClass) (j i : Nat) (h : i < p.slotBytes) :
    (s.slotBytes p k j)[i]? = some ((s.slots k).read (slotAddr p j i)) := by
  simp [State.slotBytes, h]

/-- A slot memory after RB_ADD's write of slot `w`: each byte of the slot is its image's, every other byte is as
before (R133). -/
theorem read_slot_write (hf : p.Fits) (m : Memory) (w : Nat) (content : List Byte) (a : Nat) :
    (m.writeBytes (slotAddr p w 0) (slotImage p content)).read a =
      if p.slotBytes * w ≤ a ∧ a < p.slotBytes * w + p.slotBytes then
        (slotImage p content).getD (a - p.slotBytes * w) 0x00
      else m.read a := by
  rw [Memory.read_writeBytes, slotImage_length hf]
  rfl

/-- Slot by slot: the slot written is its image, every other slot is as before. -/
theorem read_slotAddr_write (hf : p.Fits) (m : Memory) (w j i : Nat) (content : List Byte) (hi : i < p.slotBytes) :
    (m.writeBytes (slotAddr p w 0) (slotImage p content)).read (slotAddr p j i) =
      if j = w then (slotImage p content).getD i 0x00 else m.read (slotAddr p j i) := by
  rw [read_slot_write hf]
  unfold slotAddr
  by_cases hj : j = w
  · subst hj
    rw [if_pos (by omega), if_pos rfl]
    congr 1
    omega
  · rw [if_neg hj, if_neg]
    rcases Nat.lt_or_gt_of_ne hj with h | h
    · have := Nat.mul_le_mul_left p.slotBytes (Nat.succ_le_of_lt h)
      rw [Nat.mul_succ] at this; omega
    · have := Nat.mul_le_mul_left p.slotBytes (Nat.succ_le_of_lt h)
      rw [Nat.mul_succ] at this; omega

theorem read_zeroed (a : Nat) : Memory.zeroed.read a = 0x00 := rfl

/-- The first enabled slot of a scan is one of the slots, and enabled (R134). -/
theorem findSlot_some (hf : p.Fits) {k : MsgClass} {d0 j : Nat} {s : State} (h : findSlot p k d0 s = some j) :
    j < capacity p k ∧ s.slotEnabled p k j = true := by
  have hm := List.mem_of_find?_eq_some h
  simp only [scanOrder, List.mem_map, List.mem_range] at hm
  obtain ⟨i, _, rfl⟩ := hm
  exact ⟨Nat.mod_lt _ (capacity_pos hf k), List.find?_some h⟩

/-- What RB_FIND can do: move the display cursor onto an enabled slot, or leave it, clamped (R134). -/
theorem execRbFindAt_cases (hf : p.Fits) (k : MsgClass) (s : State) :
    ∃ j r, j < capacity p k ∧ execRbFindAt p k s = .next (respond r (s.setD k j)) := by
  cases h : findSlot p k (clamp p k (s.dCursor k)) s with
  | some j => exact ⟨j, [foundByte true, byteOf j], (findSlot_some hf h).1, by simp only [execRbFindAt, h]⟩
  | none =>
    exact ⟨_, [foundByte false, byteOf (clamp p k (s.dCursor k))], clamp_lt hf k (s.dCursor k), by
      simp only [execRbFindAt, h]⟩

/-- The scan visits every slot (R134). -/
theorem mem_scanOrder {k : MsgClass} {d0 j : Nat} (hd : d0 < capacity p k) :
    j ∈ scanOrder p k d0 ↔ j < capacity p k := by
  simp only [scanOrder, List.mem_map, List.mem_range]
  constructor
  · rintro ⟨i, _, rfl⟩; exact Nat.mod_lt _ (Nat.zero_lt_of_lt hd)
  · intro hj
    by_cases h : d0 ≤ j
    · exact ⟨j - d0, by omega, by rw [show d0 + (j - d0) = j by omega, Nat.mod_eq_of_lt hj]⟩
    · exact ⟨j + capacity p k - d0, by omega, by
        rw [show d0 + (j + capacity p k - d0) = j + capacity p k by omega, Nat.add_mod_right, Nat.mod_eq_of_lt hj]⟩

/-- No slot is found exactly when none is enabled. -/
theorem findSlot_none_iff {k : MsgClass} {d0 : Nat} {s : State} (hd : d0 < capacity p k) :
    findSlot p k d0 s = none ↔ ∀ j, j < capacity p k → s.slotEnabled p k j = false := by
  simp only [findSlot, List.find?_eq_none, mem_scanOrder hd, Bool.not_eq_true]

/-- The slot found is the first of the scan order that is enabled. -/
theorem findSlot_first {k : MsgClass} {d0 i : Nat} {s : State} (hi : i < capacity p k)
    (he : s.slotEnabled p k ((d0 + i) % capacity p k) = true)
    (hb : ∀ i', i' < i → s.slotEnabled p k ((d0 + i') % capacity p k) = false) :
    findSlot p k d0 s = some ((d0 + i) % capacity p k) := by
  rw [findSlot, List.find?_eq_some_iff_getElem]
  refine ⟨he, i, by simpa [scanOrder] using hi, by simp [scanOrder], ?_⟩
  intro j hj
  simp [scanOrder, hb j hj]

theorem enabledCount_le (p : Config) (k : MsgClass) (s : State) : enabledCount p k s ≤ capacity p k := by
  unfold enabledCount
  exact (List.length_filter_le _ _).trans (by simp)

/-- The enabled flag of slot `j` is the first byte of the slot (R18, R30). -/
theorem slotEnabled_iff (p : Config) (s : State) (k : MsgClass) (j : Nat) :
    s.slotEnabled p k j = true ↔ (s.slots k).read (p.slotBytes * j) ≠ 0x00 := by
  simp [State.slotEnabled, isEnabled, slotAddr]

theorem slotEnabled_false_iff (p : Config) (s : State) (k : MsgClass) (j : Nat) :
    s.slotEnabled p k j = false ↔ (s.slots k).read (p.slotBytes * j) = 0x00 := by
  simp [State.slotEnabled, isEnabled, slotAddr]

/-- A slot read whole is the list whose bytes are the slot's. -/
theorem slotBytes_eq {s : State} {k : MsgClass} {j : Nat} {l : List Byte} (hl : l.length = p.slotBytes)
    (h : ∀ i, i < p.slotBytes → (s.slots k).read (slotAddr p j i) = l.getD i 0) : s.slotBytes p k j = l := by
  apply List.ext_getElem?
  intro i
  by_cases hi : i < p.slotBytes
  · rw [slotBytes_getElem? _ _ _ _ hi, h i hi]
    simp [List.getD_eq_getElem?_getD, List.getElem?_eq_getElem (show i < l.length by omega)]
  · rw [List.getElem?_eq_none (by rw [slotBytes_length]; exact Nat.le_of_not_lt hi),
      List.getElem?_eq_none (by omega)]

end Sys2Proof.Machine
end

