-- ==== Sys2Proof/Laws/Exec.lean ====
section
/-! SUPPORT. Said once, what an instruction can do: it computes, from its own unit's state alone, new contents for that
unit and a list of responses (10_state R22, 20_memory R46). Frames, commutation and the independence of runs from the
owner's input all follow from `exec_local`. -/

namespace Sys2Proof.Machine

/-- New contents for one unit (R10). -/
inductive UnitUpdate where
  | crcGenerator (crc : Word16)
  | encoder
  | decoder (inFrame escaping : Bool) (buf : List Byte)
  | ring (k : MsgClass) (slots : Memory) (w d : Nat)

/-- The unit an update is for. -/
def UnitUpdate.unit : UnitUpdate → BlockUnit
  | .crcGenerator _ => .crcGenerator
  | .encoder => .encoder
  | .decoder _ _ _ => .decoder
  | .ring k _ _ _ => .ring k

/-- The state with one unit's contents replaced. -/
def UnitUpdate.apply : UnitUpdate → State → State
  | .crcGenerator c, s => { s with crc := c }
  | .encoder, s => s
  | .decoder f e b, s => { s with decInFrame := f, decEscaping := e, decBuf := b }
  | .ring k m w d, s => ((s.setSlots k m).setW k w).setD k d

/-- The state with responses added. -/
def State.addResponses (s : State) (rs : List (List Byte)) : State := { s with output := s.output ++ rs }

@[simp] theorem addResponses_addResponses (s : State) (r q : List (List Byte)) :
    (s.addResponses r).addResponses q = s.addResponses (r ++ q) := by simp [State.addResponses]

@[simp] theorem addResponses_output (s : State) (rs : List (List Byte)) :
    (s.addResponses rs).output = s.output ++ rs := rfl

@[simp] theorem addResponses_input (s : State) (rs : List (List Byte)) : (s.addResponses rs).input = s.input := rfl

@[simp] theorem addResponses_block (s : State) (rs : List (List Byte)) : (s.addResponses rs).block = s.block := rfl

theorem respond_eq (r : List Byte) (s : State) : respond r s = s.addResponses [r] := rfl

@[simp] theorem apply_output (u : UnitUpdate) (s : State) : (u.apply s).output = s.output := by
  cases u <;> simp [UnitUpdate.apply]

@[simp] theorem apply_input (u : UnitUpdate) (s : State) : (u.apply s).input = s.input := by
  cases u <;> simp [UnitUpdate.apply]

/-- Adding responses and replacing a unit's contents do not meet. -/
theorem apply_addResponses (u : UnitUpdate) (s : State) (rs : List (List Byte)) :
    u.apply (s.addResponses rs) = (u.apply s).addResponses rs := by
  cases u with
  | ring k m w d => cases k <;> rfl
  | _ => rfl

theorem State.setW_self (s : State) (k : MsgClass) : s.setW k (s.wCursor k) = s := by
  cases k <;> simp [State.setW, State.wCursor]

theorem State.setD_self (s : State) (k : MsgClass) : s.setD k (s.dCursor k) = s := by
  cases k <;> simp [State.setD, State.dCursor]

theorem State.setSlots_self (s : State) (k : MsgClass) : s.setSlots k (s.slots k) = s := by
  cases k <;> rfl

theorem SameUnit.refl (s : State) (u : BlockUnit) : s.SameUnit s u := by cases u <;> simp [State.SameUnit]

theorem SameUnit.addResponses_right {s t : State} {u : BlockUnit} (rs : List (List Byte)) (h : s.SameUnit t u) :
    s.SameUnit (t.addResponses rs) u := by
  cases u with
  | ring k => cases k <;> exact h
  | _ => exact h

/-- An update leaves every other unit as it was. -/
theorem SameUnit.apply_right {s t : State} {u : BlockUnit} (v : UnitUpdate) (huv : u ≠ v.unit) (h : s.SameUnit t u) :
    s.SameUnit (v.apply t) u := by
  cases v with
  | encoder => exact h
  | crcGenerator c =>
    cases u with
    | crcGenerator => exact absurd rfl huv
    | ring k => cases k <;> exact h
    | _ => exact h
  | decoder f e b =>
    cases u with
    | decoder => exact absurd rfl huv
    | ring k => cases k <;> exact h
    | _ => exact h
  | ring k m w d =>
    cases u with
    | ring k' => cases k <;> cases k' <;> first | exact h | exact absurd rfl huv
    | _ => cases k <;> exact h

/-- Updates of different units may be exchanged (R46). -/
theorem apply_comm {u v : UnitUpdate} (h : u.unit ≠ v.unit) (s : State) :
    u.apply (v.apply s) = v.apply (u.apply s) := by
  cases u with
  | ring k m w d =>
    cases v with
    | ring k' m' w' d' => cases k <;> cases k' <;> first | rfl | exact absurd rfl h
    | _ => cases k <;> rfl
  | _ =>
    cases v with
    | ring k' m' w' d' => cases k' <;> rfl
    | _ => first | rfl | exact absurd rfl h

/-- The two things a meaning can do, decided by its own unit's state alone: new contents for the unit and responses, or
the one stop, on a buffer past its capacity (R201). -/
def Local (p : Config) (unit : BlockUnit) (f : State → Result) (s : State) : Prop :=
  (∃ (u : UnitUpdate) (rs : List (List Byte)), u.unit = unit ∧
    (s.AccOk p → ∀ g e buf, u = .decoder g e buf → buf.length ≤ p.maxAcc) ∧
    ∀ s', s.SameUnit s' unit → f s' = .next ((u.apply s').addResponses rs)) ∨
  (¬ s.AccOk p ∧ ∀ s', s.SameUnit s' unit → f s' = .refused .accLenOutOfRange)

theorem Local.decoder {f : State → Result} {s : State} (g e : Bool) (buf : List Byte) (rs : List (List Byte))
    (hb : s.AccOk p → buf.length ≤ p.maxAcc)
    (h : ∀ s', s.SameUnit s' .decoder → f s' = .next (((UnitUpdate.decoder g e buf).apply s').addResponses rs)) :
    Local p .decoder f s :=
  .inl ⟨_, rs, rfl, fun ho _ _ _ hu => by cases hu; exact hb ho, h⟩

theorem Local.ring {f : State → Result} {s : State} (k : MsgClass) (m : Memory) (w d : Nat) (rs : List (List Byte))
    (h : ∀ s', s.SameUnit s' (.ring k) → f s' = .next (((UnitUpdate.ring k m w d).apply s').addResponses rs)) :
    Local p (.ring k) f s :=
  .inl ⟨.ring k m w d, rs, rfl, fun _ _ _ _ hu => (nomatch hu), h⟩

theorem Local.congr {unit : BlockUnit} {f g : State → Result} {s : State} (h : Local p unit f s)
    (hfg : ∀ s', s.SameUnit s' unit → f s' = g s') : Local p unit g s := by
  rcases h with ⟨u, rs, hu, hb, hf⟩ | ⟨hn, hf⟩
  · exact .inl ⟨u, rs, hu, hb, fun s' hs => (hfg s' hs).symm.trans (hf s' hs)⟩
  · exact .inr ⟨hn, fun s' hs => (hfg s' hs).symm.trans (hf s' hs)⟩

/-- R110's append, after the escaping flag is set to `e`. -/
theorem appendByte_local (p : Config) (v : Byte) (e : Bool) (s : State) :
    Local p .decoder (fun s' => appendByte p v { s' with decEscaping := e }) s := by
  by_cases h : s.AccOk p
  · by_cases hlt : s.decBuf.length < p.maxAcc
    · refine .decoder s.decInFrame e (s.decBuf ++ [v]) [[0x00]] (fun _ => by simp; omega) ?_
      rintro s' ⟨h1, -, h3⟩
      rw [appendByte_eq v (by simpa [State.AccOk, ← h3] using h), h1, h3]
      rw [h3] at hlt
      simp only [afterAppend, hlt, if_true]; rfl
    · refine .decoder false false [] [[0x02, 0x05]] (fun _ => Nat.zero_le _) ?_
      rintro s' ⟨-, -, h3⟩
      rw [appendByte_eq v (by simpa [State.AccOk, ← h3] using h)]
      rw [h3] at hlt
      simp only [afterAppend, hlt, if_false]; rfl
  · exact .inr ⟨h, fun s' ⟨_, _, h3⟩ => appendByte_refused v (by simpa [State.AccOk, ← h3] using h)⟩

/-- A response given on leaving the frame, whatever it is (R108, R185). -/
theorem leaveFrame_local (p : Config) (r : List Byte) (s : State) :
    Local p .decoder (fun s' => .next (respond r (leaveFrame s'))) s :=
  .decoder false false [] [r] (fun _ => Nat.zero_le _) (fun _ _ => rfl)

/-- What a received byte does to the decoder (R102, R201). -/
theorem consume_local (p : Config) (b : Byte) (s : State) : Local p .decoder (consume p b) s := by
  by_cases hf : s.decInFrame = false
  · by_cases hb : b = p.sof
    · refine .decoder true false [] [eventBytes .none] (fun _ => Nat.zero_le _) ?_
      intro s' ⟨h1, h2, h3⟩
      rw [consume_out (h1 ▸ hf), if_pos hb]; rfl
    · refine .decoder s.decInFrame s.decEscaping s.decBuf [eventBytes .none] id ?_
      intro s' ⟨h1, h2, h3⟩
      rw [consume_out (h1 ▸ hf), if_neg hb, h1, h2, h3]; rfl
  by_cases he : s.decEscaping = true
  · refine (appendByte_local p (b ^^^ p.mask) false s).congr ?_
    intro s' ⟨h1, h2, _⟩
    rw [Bool.not_eq_false] at hf
    exact (consume_escaping (h1 ▸ hf) (h2 ▸ he)).symm
  have red : ∀ s', s.SameUnit s' .decoder → consume p b s' =
      if b = p.esc then inEsc s' else if b = p.sof then inSof s'
      else if b = p.eof then inEof p s' else inData p b s' := by
    intro s' ⟨h1, h2, _⟩
    rw [consume, if_neg (h1 ▸ hf), if_neg (h2 ▸ he)]
  rw [Bool.not_eq_false] at hf
  rw [Bool.not_eq_true] at he
  by_cases h1 : b = p.esc
  · refine .decoder true true s.decBuf [eventBytes .none] id ?_
    intro s' hs
    rw [red s' hs, if_pos h1, inEsc, noEvent, ← hf, hs.1, hs.2.2]; rfl
  by_cases h2 : b = p.sof
  · refine .decoder true false [] [eventBytes .none] (fun _ => Nat.zero_le _) ?_
    intro s' hs
    rw [red s' hs, if_neg h1, if_pos h2, inSof, noEvent, ← hf, ← he, hs.1, hs.2.1]; rfl
  by_cases h3 : b = p.eof
  · by_cases ho : s.decBuf.length ≤ p.maxAcc
    · cases hp : parseBody p s.decBuf with
      | ok f =>
        refine (leaveFrame_local p (eventBytes (.frame f)) s).congr fun s' hs => ?_
        rw [red s' hs, if_neg h1, if_neg h2, if_pos h3, inEof, ← hs.2.2, if_pos ho, hp]; rfl
      | error r =>
        refine (leaveFrame_local p (eventBytes (.bad r)) s).congr fun s' hs => ?_
        rw [red s' hs, if_neg h1, if_neg h2, if_pos h3, inEof, ← hs.2.2, if_pos ho, hp]; rfl
    · refine .inr ⟨ho, fun s' hs => ?_⟩
      rw [red s' hs, if_neg h1, if_neg h2, if_pos h3, inEof, if_neg (hs.2.2 ▸ ho)]
  · refine (appendByte_local p b false s).congr fun s' hs => ?_
    have he' : s'.decEscaping = false := hs.2.1 ▸ he
    rw [red s' hs, if_neg h1, if_neg h2, if_neg h3, inData]
    congr 1
    rw [← he']

/-- Two received bytes, one after the other. -/
theorem consumePair_local (p : Config) (b0 b1 : Byte) (s : State) : Local p .decoder (consumePair p b0 b1) s := by
  rcases consume_local p b0 s with ⟨u, rs, hu, hb, h1⟩ | ⟨hn, h1⟩
  · have hs : ∀ s', s.SameUnit s' .decoder →
        (u.apply s).SameUnit ((u.apply s').addResponses rs) .decoder := by
      intro s' hs
      cases u with
      | decoder f e buf => exact ⟨rfl, rfl, rfl⟩
      | _ => cases hu
    rcases consume_local p b1 (u.apply s) with ⟨v, rs', hv, hb', h2⟩ | ⟨hn, h2⟩
    · refine .inl ⟨v, rs ++ rs', hv, ?_, ?_⟩
      · intro ho
        refine hb' ?_
        cases u with
        | decoder f e buf => exact hb ho f e buf rfl
        | _ => cases hu
      · intro s' hs'
        rw [consumePair, h1 s' hs']
        show consume p b1 _ = _
        rw [h2 _ (hs s' hs'), apply_addResponses, addResponses_addResponses]
        cases u <;> cases v <;> first | rfl | exact BlockUnit.noConfusion hu | exact BlockUnit.noConfusion hv
    · refine .inr ⟨fun ho => hn ?_, ?_⟩
      · cases u with
        | decoder f e buf => exact hb ho f e buf rfl
        | _ => cases hu
      · intro s' hs'
        rw [consumePair, h1 s' hs']
        exact h2 _ (hs s' hs')
  · refine .inr ⟨hn, ?_⟩
    intro s' hs'
    rw [consumePair, h1 s' hs']; rfl

/-- What an instruction does, from its own unit's state alone (R22, R46). -/
theorem execAt_local (p : Config) (i : Instr) (s : State) : Local p i.unit (execAt p i) s := by
  cases i with
  | crcInit => exact .inl ⟨.crcGenerator p.init, [[]], rfl, by simp, fun _ _ => rfl⟩
  | crcByte b =>
    refine .inl ⟨.crcGenerator (crcStep p s.crc b), [[]], rfl, by simp, fun s' (hs : s.crc = s'.crc) => ?_⟩
    rw [hs]; rfl
  | crcRead =>
    refine .inl ⟨.crcGenerator s.crc, [beBytes (crcOut p s.crc)], rfl, by simp, fun s' (hs : s.crc = s'.crc) => ?_⟩
    rw [hs]; rfl
  | stuff b => exact .inl ⟨.encoder, [Machine.stuff p b], rfl, by simp, fun _ _ => rfl⟩
  | encFrame t f q d => exact .inl ⟨.encoder, [encodeFrame p t f q d], rfl, by simp, fun _ _ => rfl⟩
  | decReset => exact leaveFrame_local p [] s
  | decByte b => exact consume_local p b s
  | rbInit k => exact .ring k Memory.zeroed 0 0 [[]] (fun _ _ => rfl)
  | rbAdd k c =>
    refine .ring k ((s.slots k).writeBytes (slotAddr p (clamp p k (s.wCursor k)) 0) (slotImage p c))
      (nextCursor p k (clamp p k (s.wCursor k))) (s.dCursor k) [[]] ?_
    rintro s' ⟨h1, h2, h3⟩
    simp only [execAt, execRbAddAt, UnitUpdate.apply, h1, h2, h3, respondEmpty, respond_eq]
    congr 2
    cases k <;> simp [State.setSlots, State.setW, State.setD, State.dCursor]
  | rbFind k =>
    have hs' : ∀ s' : State, s.slots k = s'.slots k → ∀ d0, findSlot p k d0 s' = findSlot p k d0 s := by
      intro s' hs d0; simp only [findSlot, State.slotEnabled, hs]
    cases h1 : findSlot p k (clamp p k (s.dCursor k)) s with
    | none =>
      refine .ring k (s.slots k) (s.wCursor k) (clamp p k (s.dCursor k))
        [[foundByte false, byteOf (clamp p k (s.dCursor k))]] ?_
      rintro s' ⟨g1, g2, g3⟩
      rw [g3] at h1
      simp only [execAt, execRbFindAt, hs' s' g1, h1, g1, g2, g3, UnitUpdate.apply, respond_eq, State.setSlots_self,
        State.setW_self]
    | some j =>
      refine .ring k (s.slots k) (s.wCursor k) j [[foundByte true, byteOf j]] ?_
      rintro s' ⟨g1, g2, g3⟩
      rw [g3] at h1
      simp only [execAt, execRbFindAt, hs' s' g1, h1, g1, g2, UnitUpdate.apply, respond_eq, State.setSlots_self,
        State.setW_self]
  | rbAdv k =>
    refine .ring k (s.slots k) (s.wCursor k) (nextCursor p k (clamp p k (s.dCursor k))) [[]] ?_
    rintro s' ⟨g1, g2, g3⟩
    simp only [execAt, execRbAdvAt, g1, g2, g3, UnitUpdate.apply, respondEmpty, respond_eq, State.setSlots_self,
      State.setW_self]
  | rbCount k =>
    refine .ring k (s.slots k) (s.wCursor k) (s.dCursor k) [[byteOf (enabledCount p k s)]] ?_
    rintro s' ⟨g1, g2, g3⟩
    simp only [execAt, execRbCountAt, enabledCount, State.slotEnabled, g1, g2, g3, UnitUpdate.apply, respond_eq,
      State.setSlots_self, State.setW_self, State.setD_self]
  | rbRstd k =>
    refine .ring k (s.slots k) (s.wCursor k) 0 [[]] ?_
    rintro s' ⟨g1, g2, g3⟩
    simp only [execAt, execRbRstd, g1, g2, UnitUpdate.apply, respondEmpty, respond_eq, State.setSlots_self,
      State.setW_self]
  | rbRead k =>
    refine .ring k (s.slots k) (s.wCursor k) (s.dCursor k) [s.slotBytes p k (clamp p k (s.dCursor k))] ?_
    rintro s' ⟨g1, g2, g3⟩
    simp only [execAt, execRbReadAt, State.slotBytes, g1, g2, g3, UnitUpdate.apply, respond_eq, State.setSlots_self,
      State.setW_self, State.setD_self]
  | sof => exact consume_local p _ s
  | eof => exact consume_local p _ s
  | esc => exact consume_local p _ s
  | data b => exact consume_local p b s
  | escPair7E => exact consumePair_local p _ _ s
  | escPair7F => exact consumePair_local p _ _ s
  | escPair7D => exact consumePair_local p _ _ s
  | typeStatus => exact consume_local p _ s
  | typeTime => exact consume_local p _ s
  | typeCall => exact consume_local p _ s
  | typeNotify => exact consume_local p _ s
  | typePing => exact consume_local p _ s
  | typeAck => exact consume_local p _ s
  | evNone =>
    refine .decoder s.decInFrame s.decEscaping s.decBuf [eventBytes .none] id ?_
    rintro s' ⟨g1, g2, g3⟩; rw [g1, g2, g3]; rfl
  | evFrame f => exact leaveFrame_local p _ s
  | evBad r => exact leaveFrame_local p _ s
  | tooShort => exact leaveFrame_local p _ s
  | badVersion => exact leaveFrame_local p _ s
  | lenMismatch => exact leaveFrame_local p _ s
  | crcMismatch => exact leaveFrame_local p _ s
  | overflow => exact leaveFrame_local p _ s

/-- What an instruction of the machine does: the block's, at the defaults. -/
theorem exec_local (i : Instr) (s : State) : Local .default i.unit (exec i) s :=
  (execAt_local .default i s).congr fun s' _ => execAt_default i s'

/-- With the buffer within its capacity every instruction answers a next state (R180). -/
theorem execAt_ok {p : Config} (i : Instr) {s : State} (h : s.AccOk p) :
    ∃ (u : UnitUpdate) (rs : List (List Byte)), u.unit = i.unit ∧
      (∀ g e buf, u = .decoder g e buf → buf.length ≤ p.maxAcc) ∧
      ∀ s', s.SameUnit s' i.unit → execAt p i s' = .next ((u.apply s').addResponses rs) := by
  rcases execAt_local p i s with ⟨u, rs, hu, hb, he⟩ | ⟨hn, -⟩
  · exact ⟨u, rs, hu, hb h, he⟩
  · exact absurd h hn

theorem exec_ok (i : Instr) {s : State} (h : s.AccOk .default) :
    ∃ (u : UnitUpdate) (rs : List (List Byte)), u.unit = i.unit ∧
      (∀ g e buf, u = .decoder g e buf → buf.length ≤ Config.default.maxAcc) ∧
      ∀ s', s.SameUnit s' i.unit → exec i s' = .next ((u.apply s').addResponses rs) := by
  simpa only [execAt_default] using execAt_ok i h

/-- An instruction neither reads nor writes the owner's pending input. -/
theorem exec_input (i : Instr) (s : State) (x : List Input) :
    exec i { s with input := x } =
      match exec i s with
      | .next t => .next { t with input := x }
      | .fault e => .fault e
      | .refused e => .refused e := by
  have hs : s.SameUnit { s with input := x } i.unit := by
    cases i.unit with
    | crcGenerator => rfl
    | encoder => trivial
    | decoder => exact ⟨rfl, rfl, rfl⟩
    | ring k => cases k <;> exact ⟨rfl, rfl, rfl⟩
  rcases exec_local i s with ⟨u, rs, -, -, he⟩ | ⟨-, he⟩
  · rw [he s (SameUnit.refl s _), he _ hs]
    cases u with
    | ring k m w d => cases k <;> rfl
    | _ => rfl
  · rw [he s (SameUnit.refl s _), he _ hs]

/-- If an instruction answers a next state, it is the state before with its own unit's contents replaced and responses
added. -/
theorem execAt_next {p : Config} {i : Instr} {s t : State} (h : execAt p i s = .next t) :
    ∃ (u : UnitUpdate) (rs : List (List Byte)), u.unit = i.unit ∧ t = (u.apply s).addResponses rs := by
  rcases execAt_local p i s with ⟨u, rs, hu, -, he⟩ | ⟨-, he⟩
  · rw [he s (SameUnit.refl s _)] at h
    cases h
    exact ⟨u, rs, hu, rfl⟩
  · rw [he s (SameUnit.refl s _)] at h
    cases h

theorem exec_next {i : Instr} {s t : State} (h : exec i s = .next t) :
    ∃ (u : UnitUpdate) (rs : List (List Byte)), u.unit = i.unit ∧ t = (u.apply s).addResponses rs :=
  execAt_next ((execAt_default i s).trans h)

end Sys2Proof.Machine
end

