-- ==== Sys2Proof/Laws/PerInstr.lean ====
section
/-! SUPPORT. Per-instruction statements about the syntax. EncodedLength: how many bytes an instruction's encoding has
(30_encoding R62, R63), and that a request's first byte is an assigned code (R61, R64), so no two requests can be cut
differently. -/

namespace Sys2Proof

/-- The number of bytes of an instruction's row at the default parameters: 1 for OP, 2 for OP_B, 5 and the payload for
OP_FRAME, 18 for OP_SLOT (R62); one byte, or two for a pair (R54, R55, R150); a response's bytes (R63); a reason's code
(R181). -/
def Instr.byteCount : Instr → Nat
  | .crcInit => 1
  | .crcByte _ => 2
  | .crcRead => 1
  | .stuff _ => 2
  | .encFrame _ _ _ payload => 5 + payload.length
  | .decReset => 1
  | .decByte _ => 2
  | .rbInit _ => 1
  | .rbAdd _ _ => 18
  | .rbFind _ => 1
  | .rbAdv _ => 1
  | .rbCount _ => 1
  | .rbRstd _ => 1
  | .rbRead _ => 1
  | .sof => 1
  | .eof => 1
  | .esc => 1
  | .data _ => 1
  | .escPair7E => 2
  | .escPair7F => 2
  | .escPair7D => 2
  | .typeStatus => 1
  | .typeTime => 1
  | .typeCall => 1
  | .typeNotify => 1
  | .typePing => 1
  | .typeAck => 1
  | .evNone => 1
  | .evFrame f => 8 + f.payload.length
  | .evBad _ => 2
  | .tooShort => 1
  | .badVersion => 1
  | .lenMismatch => 1
  | .crcMismatch => 1
  | .overflow => 1

namespace Laws.EncodedLength

/-- The encoding of a well-formed instruction has its row's number of bytes, and a request's code is assigned. -/
def Statement (i : Instr) : Prop :=
  i.wellFormed .default = true → (encode .default i).length = i.byteCount ∧
    (i.kind = .op → ∃ op bytes, encode .default i = op :: bytes ∧ ¬ Machine.UnassignedCode op)

/-- The code of an operation is assigned. -/
theorem codeOf_assigned (k : MsgClass) (o : Opcode) : ¬ Machine.UnassignedCode (codeOf k o) := by
  rw [unassigned_iff, lookupOp_codeOf]; simp

theorem crcInit : Statement .crcInit := fun _ => ⟨rfl, fun _ => ⟨_, _, rfl, codeOf_assigned .normal .crcInit⟩⟩

theorem crcByte (b : Byte) : Statement (.crcByte b) :=
  fun _ => ⟨rfl, fun _ => ⟨_, _, rfl, codeOf_assigned .normal .crcByte⟩⟩

theorem crcRead : Statement .crcRead := fun _ => ⟨rfl, fun _ => ⟨_, _, rfl, codeOf_assigned .normal .crcRead⟩⟩

theorem stuff (b : Byte) : Statement (.stuff b) :=
  fun _ => ⟨rfl, fun _ => ⟨_, _, rfl, codeOf_assigned .normal .stuff⟩⟩

theorem encFrame (type flags seq : Byte) (payload : List Byte) : Statement (.encFrame type flags seq payload) :=
  fun _ => ⟨by simp [encode, Instr.byteCount]; omega, fun _ => ⟨_, _, rfl, codeOf_assigned .normal .encFrame⟩⟩

theorem decReset : Statement .decReset := fun _ => ⟨rfl, fun _ => ⟨_, _, rfl, codeOf_assigned .normal .decReset⟩⟩

theorem decByte (b : Byte) : Statement (.decByte b) :=
  fun _ => ⟨rfl, fun _ => ⟨_, _, rfl, codeOf_assigned .normal .decByte⟩⟩

theorem rbInit (k : MsgClass) : Statement (.rbInit k) :=
  fun _ => ⟨rfl, fun _ => ⟨_, _, rfl, codeOf_assigned k .rbInit⟩⟩

theorem rbAdd (k : MsgClass) (content : List Byte) : Statement (.rbAdd k content) :=
  fun h => ⟨congrArg Nat.succ (of_decide_eq_true h), fun _ => ⟨_, _, rfl, codeOf_assigned k .rbAdd⟩⟩

theorem rbFind (k : MsgClass) : Statement (.rbFind k) :=
  fun _ => ⟨rfl, fun _ => ⟨_, _, rfl, codeOf_assigned k .rbFind⟩⟩

theorem rbAdv (k : MsgClass) : Statement (.rbAdv k) :=
  fun _ => ⟨rfl, fun _ => ⟨_, _, rfl, codeOf_assigned k .rbAdv⟩⟩

theorem rbCount (k : MsgClass) : Statement (.rbCount k) :=
  fun _ => ⟨rfl, fun _ => ⟨_, _, rfl, codeOf_assigned k .rbCount⟩⟩

theorem rbRstd (k : MsgClass) : Statement (.rbRstd k) :=
  fun _ => ⟨rfl, fun _ => ⟨_, _, rfl, codeOf_assigned k .rbRstd⟩⟩

theorem rbRead (k : MsgClass) : Statement (.rbRead k) :=
  fun _ => ⟨rfl, fun _ => ⟨_, _, rfl, codeOf_assigned k .rbRead⟩⟩

theorem sof : Statement .sof := fun _ => ⟨rfl, nofun⟩

theorem eof : Statement .eof := fun _ => ⟨rfl, nofun⟩

theorem esc : Statement .esc := fun _ => ⟨rfl, nofun⟩

theorem data (b : Byte) : Statement (.data b) := fun _ => ⟨rfl, nofun⟩

theorem escPair7E : Statement .escPair7E := fun _ => ⟨rfl, nofun⟩

theorem escPair7F : Statement .escPair7F := fun _ => ⟨rfl, nofun⟩

theorem escPair7D : Statement .escPair7D := fun _ => ⟨rfl, nofun⟩

theorem typeStatus : Statement .typeStatus := fun _ => ⟨rfl, nofun⟩

theorem typeTime : Statement .typeTime := fun _ => ⟨rfl, nofun⟩

theorem typeCall : Statement .typeCall := fun _ => ⟨rfl, nofun⟩

theorem typeNotify : Statement .typeNotify := fun _ => ⟨rfl, nofun⟩

theorem typePing : Statement .typePing := fun _ => ⟨rfl, nofun⟩

theorem typeAck : Statement .typeAck := fun _ => ⟨rfl, nofun⟩

theorem evNone : Statement .evNone := fun _ => ⟨rfl, nofun⟩

theorem evFrame (f : Frame) : Statement (.evFrame f) :=
  fun _ => ⟨by simp [encode, eventBytes, frameBody, beBytes, Instr.byteCount]; omega, nofun⟩

theorem evBad (r : BadReason) : Statement (.evBad r) := fun _ => ⟨rfl, nofun⟩

theorem tooShort : Statement .tooShort := fun _ => ⟨rfl, nofun⟩

theorem badVersion : Statement .badVersion := fun _ => ⟨rfl, nofun⟩

theorem lenMismatch : Statement .lenMismatch := fun _ => ⟨rfl, nofun⟩

theorem crcMismatch : Statement .crcMismatch := fun _ => ⟨rfl, nofun⟩

theorem overflow : Statement .overflow := fun _ => ⟨rfl, nofun⟩

end Laws.EncodedLength

end Sys2Proof
end

