-- ==== Sys2Proof/Laws/Run.lean ====
section
/-! SUPPORT. Runs: a run of the core as steps, a list of instructions cut in two, and what feeding stuffed body bytes
does to a decoder that is in frame (R30, R105, R106, R109). -/

namespace Sys2Proof.Machine

theorem core_run_zero (s : State) : Sys2Proof.core.run 0 s = (.next s : Result) :=
  Host.Core.run.eq_1 Sys2Proof.core s

/-- One step more of the core is one `step` before the rest. -/
theorem core_run_succ (n : Nat) (s : State) :
    Sys2Proof.core.run (n + 1) s = andThen (step s) (fun t => Sys2Proof.core.run n t) := by
  refine (Host.Core.run.eq_2 Sys2Proof.core s n).trans ?_
  show _ = andThen (step s) _
  cases h : step s <;> simp only [andThen] <;> (have h' : Sys2Proof.core.step s = _ := h) <;> rw [h'] <;> rfl

theorem execAllAt_append (p : Config) (a b : List Instr) (s : State) :
    execAllAt p (a ++ b) s = andThen (execAllAt p a s) (execAllAt p b) := by
  induction a generalizing s with
  | nil => rfl
  | cons i a ih =>
    simp only [List.cons_append, execAllAt]
    cases execAt p i s <;> simp [andThen, ih]

theorem execAll_append (a b : List Instr) (s : State) :
    execAll (a ++ b) s = andThen (execAll a s) (execAll b) := by
  simp only [← funext (execAllAt_default b), ← execAllAt_default, execAllAt_append]

theorem execAllAt_feed_cons (p : Config) (b : Byte) (bs : List Byte) (s : State) :
    execAllAt p (feed (b :: bs)) s = andThen (consume p b s) (execAllAt p (feed bs)) := rfl

theorem execAll_feed_cons (b : Byte) (bs : List Byte) (s : State) :
    execAll (feed (b :: bs)) s = andThen (consume .default b s) (execAll (feed bs)) := rfl

theorem execAllAt_feed_append (p : Config) (a b : List Byte) (s : State) :
    execAllAt p (feed (a ++ b)) s = andThen (execAllAt p (feed a) s) (execAllAt p (feed b)) := by
  simp [feed, execAllAt_append]

theorem execAll_feed_append (a b : List Byte) (s : State) :
    execAll (feed (a ++ b)) s = andThen (execAll (feed a) s) (execAll (feed b)) := by
  simp [feed, execAll_append]

/-- What an instruction may write: its unit and nothing of the owner's input (R22). -/
theorem onlyUnit_of_execAt {p : Config} {i : Instr} {s t : State} (h : execAt p i s = .next t) :
    OnlyUnit i.unit s t := by
  obtain ⟨u, rs, hu, rfl⟩ := execAt_next h
  exact ⟨fun v hv => SameUnit.addResponses_right rs (SameUnit.apply_right u (hu ▸ hv) (SameUnit.refl s v)), by simp⟩

theorem onlyUnit_of_exec {i : Instr} {s t : State} (h : exec i s = .next t) : OnlyUnit i.unit s t :=
  onlyUnit_of_execAt ((execAt_default i s).trans h)

/-- The buffer stays within its capacity through every instruction. -/
theorem execAt_accOk {p : Config} {i : Instr} {s t : State} (h : s.AccOk p) (he : execAt p i s = .next t) :
    t.AccOk p := by
  obtain ⟨u, rs, -, hb, hn⟩ := execAt_ok i h
  rw [hn s (SameUnit.refl s _)] at he
  cases he
  cases u with
  | decoder f e b => exact hb f e b rfl
  | ring k m w d => cases k <;> exact h
  | _ => exact h

theorem exec_accOk {i : Instr} {s t : State} (h : s.AccOk .default) (he : exec i s = .next t) : t.AccOk .default :=
  execAt_accOk h ((execAt_default i s).trans he)

variable {p : Config}

theorem stuff_length (b : Byte) : (stuff p b).length = if isMarker p b then 2 else 1 := by
  unfold stuff; split <;> rfl

theorem stuff_of_not_marker {b : Byte} (h : isMarker p b = false) : stuff p b = [b] := by simp [stuff, h]

theorem flatMap_stuff_length (xs : List Byte) :
    xs.length ≤ (xs.flatMap (stuff p)).length ∧ (xs.flatMap (stuff p)).length ≤ 2 * xs.length := by
  induction xs with
  | nil => simp
  | cons x xs ih =>
    simp only [List.flatMap_cons, List.length_append, List.length_cons, stuff_length]
    split <;> omega

/-- The stuffed form of one body byte stores that byte, with no event. -/
theorem feed_stuff (x : Byte) (s : State) (h : s.decInFrame = true) (he : s.decEscaping = false)
    (hl : s.decBuf.length < p.maxAcc) :
    execAllAt p (feed (stuff p x)) s = .next
      { s with decBuf := s.decBuf ++ [x], output := s.output ++ List.replicate (stuff p x).length [0x00] } := by
  have ho : s.AccOk p := Nat.le_of_lt hl
  by_cases hb : isMarker p x = true
  · have hs : stuff p x = [p.esc, x ^^^ p.mask] := by simp [stuff, hb]
    rw [hs, execAllAt_feed_cons, consume_esc h he]
    show execAllAt p (feed [x ^^^ p.mask]) _ = _
    rw [execAllAt_feed_cons, consume_escaping (by exact h) (by rfl), inEscaping, mask_mask,
      appendByte_eq _ (by exact ho)]
    show Host.Outcome.next _ = _
    unfold afterAppend
    rw [if_pos (by exact hl)]
    simp only [noEvent, respond, List.append_assoc]
    rw [← he]; rfl
  · rw [Bool.not_eq_true] at hb
    rw [stuff_of_not_marker hb, execAllAt_feed_cons, consume_data h he hb, inData, appendByte_eq _ ho]
    show Host.Outcome.next _ = _
    unfold afterAppend
    rw [if_pos hl]; rfl

/-- A stuffed body that fits the buffer is stored whole, with no event. -/
theorem feed_stuffed (xs : List Byte) (s : State) (h : s.decInFrame = true) (he : s.decEscaping = false)
    (hl : s.decBuf.length + xs.length ≤ p.maxAcc) :
    execAllAt p (feed (xs.flatMap (stuff p))) s = .next
      { s with decBuf := s.decBuf ++ xs
               output := s.output ++ List.replicate (xs.flatMap (stuff p)).length [0x00] } := by
  induction xs generalizing s with
  | nil => simp [feed, execAllAt]
  | cons x xs ih =>
    simp only [List.length_cons] at hl
    rw [List.flatMap_cons, execAllAt_feed_append, feed_stuff x s h he (by omega)]
    simp only [andThen]
    rw [ih _ (by exact h) (by exact he) (by simp; omega)]
    simp only [List.append_assoc, List.length_append, List.replicate_add, List.cons_append, List.nil_append]

/-- A body of at least 7 bytes is its five header bytes, the payload, and the two CRC bytes (R51). -/
theorem body_split (body : List Byte) (h : 7 ≤ body.length) :
    body = [body.getD 0 0, body.getD 1 0, body.getD 2 0, body.getD 3 0, body.getD 4 0] ++
      (body.take (body.length - 2)).drop 5 ++ [body.getD (body.length - 2) 0, body.getD (body.length - 1) 0] := by
  match body, h with
  | a :: b :: c :: d :: e :: r, h =>
    obtain ⟨q, x, y, rfl⟩ : ∃ q x y, r = q ++ [x, y] := by
      rcases List.eq_nil_or_concat r with rfl | ⟨r', y, rfl⟩
      · simp at h
      · rcases List.eq_nil_or_concat r' with rfl | ⟨q, x, rfl⟩
        · simp at h
        · exact ⟨q, x, y, by simp⟩
    simp

end Sys2Proof.Machine
end

