-- ==== Sys2Proof/Laws/Program.lean ====
section
/-! SUPPORT. Events read back from responses, and the list FEED answers (30_encoding R63, R66). -/

namespace Sys2Proof

/-- An event DEC_BYTE can give (R125, R126). -/
def Event.wellFormed (p : Config) : Event → Prop
  | .none => True
  | .frame f => f.wellFormed p = true
  | .bad _ => True

namespace Machine

variable {p : Config}

/-- A response of DEC_BYTE reads back as its event. -/
theorem eventOf_eventBytes {e : Event} (h : e.wellFormed p) : eventOf p (eventBytes e) = some e := by
  cases e with
  | none => rfl
  | bad r => cases r <;> rfl
  | frame f =>
    have hw : f.wellFormed p = true := h
    have hl : f.payload.length < 256 := by
      rw [Frame.wellFormed, Bool.and_eq_true] at hw
      exact Nat.lt_succ_of_le (of_decide_eq_true hw.2)
    have hd : decodeEvent p (eventBytes (.frame f)) = .ok (.evFrame f) [] := by
      change decodeFrameEvent p
        (f.version :: f.type :: f.flags :: f.seq :: byteOf f.payload.length :: (f.payload ++ beBytes f.crc16)) = _
      simp only [decodeFrameEvent, toNat_byteOf hl, List.drop_left', List.take_left', beBytes, join16_hi_lo, hw,
        if_true]
    rw [eventOf, hd]

/-- Different events have different responses (R63). -/
theorem eventBytes_injective {e e' : Event} (h : eventBytes e = eventBytes e') : e = e' := by
  cases e with
  | none => cases e' <;> simp [eventBytes] at h ⊢
  | bad r => cases e' <;> first
    | (simp [eventBytes] at h; done)
    | (rename_i r'; cases r <;> cases r' <;> simp_all [eventBytes, reasonCode])
  | frame f =>
    cases e' with
    | none => simp [eventBytes] at h
    | bad r => simp [eventBytes] at h
    | frame f' =>
      obtain ⟨v, t, g, q, d, c⟩ := f
      obtain ⟨v', t', g', q', d', c'⟩ := f'
      simp only [eventBytes, frameBody, beBytes, List.cons_append, List.nil_append, List.cons.injEq, true_and] at h
      obtain ⟨rfl, rfl, rfl, rfl, -, h⟩ := h
      obtain ⟨rfl, hc⟩ := List.append_inj' h rfl
      simp only [List.cons.injEq, and_true] at hc
      rw [← join16_hi_lo c, ← join16_hi_lo c', hc.1, hc.2]

theorem parseBody_wellFormed (hf : p.Fits) {body : List Byte} {f : Frame} (hl : body.length ≤ p.maxAcc)
    (h : parseBody p body = .ok f) : f.wellFormed p = true := by
  unfold parseBody at h
  split at h; · cases h
  split at h; · cases h
  split at h; · cases h
  split at h; · cases h
  rename_i _ hv hlen _
  cases h
  rw [not_not] at hv hlen
  have hb := (bodyByte body 4).isLt
  have h5 := hf.hdr_eq
  have h7 := hf.minBody_eq
  simp only [Frame.wellFormed, maxDelivered, coveredPart, hv, beq_self_eq_true, Bool.true_and, Bool.and_eq_true,
    decide_eq_true_eq, List.length_drop, List.length_take]
  omega

/-- R100: a received byte is answered by exactly one event, which the decoder can give. -/
theorem consume_event (hf : p.Fits) {b : Byte} {s t : State} (h : consume p b s = .next t) :
    ∃ e : Event, e.wellFormed p ∧ t.output = s.output ++ [eventBytes e] := by
  have happ : ∀ (v : Byte) (u : State), u.output = s.output → appendByte p v u = .next t →
      ∃ e : Event, e.wellFormed p ∧ t.output = s.output ++ [eventBytes e] := by
    intro v u hu hh
    by_cases ho : u.AccOk p
    · rw [appendByte_eq v ho] at hh
      cases hh
      unfold afterAppend
      split
      · exact ⟨.none, trivial, by rw [← hu]; rfl⟩
      · exact ⟨.bad .overflow, trivial, by rw [← hu]; rfl⟩
    · rw [appendByte_refused v ho] at hh; cases hh
  unfold consume at h
  split at h
  · split at h <;> cases h <;> exact ⟨.none, trivial, rfl⟩
  split at h
  · exact happ (b ^^^ p.mask) { s with decEscaping := false } rfl h
  split at h
  · cases h; exact ⟨.none, trivial, rfl⟩
  split at h
  · cases h; exact ⟨.none, trivial, rfl⟩
  split at h
  · unfold inEof at h
    split at h
    · rename_i ho
      cases hp : parseBody p s.decBuf with
      | ok f => rw [hp] at h; cases h; exact ⟨.frame f, parseBody_wellFormed hf ho hp, rfl⟩
      | error r => rw [hp] at h; cases h; exact ⟨.bad r, trivial, rfl⟩
    · cases h
  · exact happ b s rfl h

/-- A run of FEED that completes gives one event per byte, in order (R100, R66). -/
theorem feed_events (hf : p.Fits) {bytes : List Byte} {s t : State} (h : execAllAt p (feed bytes) s = .next t) :
    ∃ es : List Event, es.length = bytes.length ∧ (∀ e ∈ es, e.wellFormed p) ∧
      t.output = s.output ++ es.map eventBytes := by
  induction bytes generalizing s with
  | nil => cases h; exact ⟨[], rfl, nofun, by simp⟩
  | cons b bytes ih =>
    rw [execAllAt_feed_cons] at h
    cases hc : consume p b s with
    | next u =>
      rw [hc] at h
      obtain ⟨e, he, ho⟩ := consume_event hf hc
      obtain ⟨es, hl, hw, hu⟩ := ih h
      exact ⟨e :: es, by simp [hl], by simpa using ⟨he, hw⟩, by simp [hu, ho]⟩
    | fault r => cases r
    | refused r => rw [hc] at h; cases h

theorem indexedEvent_eq_some {i j : Nat} {e e' : Event} :
    indexedEvent i e = some (j, e') ↔ e' ≠ .none ∧ i = j ∧ e = e' := by
  cases e <;> cases e' <;> simp [indexedEvent]

/-- What FEED's list holds: byte `j` with event `e` exactly when the response to byte `j` reads as `e`, not NONE. -/
theorem mem_feedEvents {rs : List (List Byte)} {j : Nat} {e : Event} :
    (j, e) ∈ feedEvents p rs ↔ e ≠ .none ∧ ∃ r, rs[j]? = some r ∧ eventOf p r = some e := by
  simp only [feedEvents, List.mem_filterMap, Option.bind_eq_some_iff, indexedEvent_eq_some, Prod.exists,
    List.mem_zipIdx_iff_getElem?]
  constructor
  · rintro ⟨r, i, hr, e', he, hn, rfl, rfl⟩; exact ⟨hn, r, hr, he⟩
  · rintro ⟨hn, r, hr, he⟩; exact ⟨r, j, hr, e, he, hn, rfl, rfl⟩

/-- FEED's list is in the order of the bytes. -/
theorem feedEvents_sorted (rs : List (List Byte)) : ((feedEvents p rs).map Prod.fst).Pairwise (· < ·) := by
  rw [List.pairwise_map, feedEvents, List.pairwise_filterMap]
  have hz : (rs.zipIdx).Pairwise (fun a b => a.2 < b.2) := by
    rw [← List.pairwise_map (f := Prod.snd), List.zipIdx_map_snd]
    exact List.pairwise_lt_range'
  refine hz.imp ?_
  rintro ⟨r, i⟩ ⟨r', i'⟩ hlt ⟨j, e⟩ h ⟨j', e'⟩ h'
  simp only [Option.bind_eq_some_iff, indexedEvent_eq_some] at h h'
  obtain ⟨_, _, _, rfl, _⟩ := h
  obtain ⟨_, _, _, rfl, _⟩ := h'
  exact hlt

/-- The responses to the bytes are events, so FEED's list is read off them by what each is the response of. -/
theorem mem_feedEvents_map {es : List Event} (hw : ∀ e ∈ es, e.wellFormed p) {j : Nat} {e : Event} :
    (j, e) ∈ feedEvents p (es.map eventBytes) ↔ e ≠ .none ∧ es[j]? = some e := by
  rw [mem_feedEvents, List.getElem?_map]
  refine and_congr_right fun _ => ?_
  simp only [Option.map_eq_some_iff]
  constructor
  · rintro ⟨_, ⟨e', he, rfl⟩, ho⟩
    rw [eventOf_eventBytes (hw e' (List.mem_of_getElem? he))] at ho
    cases ho; exact he
  · intro he; exact ⟨_, ⟨e, he, rfl⟩, eventOf_eventBytes (hw e (List.mem_of_getElem? he))⟩

end Machine

end Sys2Proof
end

