-- ==== Sys2Proof/Tests/Slice0.lean ====
section
/-! SUPPORT. Tests: expected values are those of spec/95_test_vectors.md or written out by hand from the encoding
tables; each is one step on a small state. After them a witness for the hypotheses of every obligation that has any. -/

namespace Sys2Proof.Tests

open Sys2Proof.Machine

-- One theorem after another: each kernel evaluation run beside the others takes a thread with memory of its own.
set_option Elab.async false

/-! ## Small states -/

/-- The state a result holds, if it is a next state. -/
def stateOf : Result → Option State
  | .next s => some s
  | _ => none

/-- The responses after one instruction. -/
def answers (i : Instr) (s : State) : Option (List (List Byte)) := (stateOf (exec i s)).map State.output

/-- In frame (or escaping), with this buffer. -/
def inFrame (escaping : Bool) (buf : List Byte) : State :=
  { State.reset with decInFrame := true, decEscaping := escaping, decBuf := buf }

/-- The decoder's part after one instruction. -/
def decAfter (i : Instr) (s : State) : Option (Bool × Bool × List Byte) :=
  (stateOf (exec i s)).map (fun t => (t.decInFrame, t.decEscaping, t.decBuf))

/-- The content `c(i, t)` of the spec's ring-buffer vectors. -/
def content (id text : Byte) : List Byte := [0xF0, id, 0x01, text] ++ List.replicate 13 0x00

/-- EMERGENCY with entries 1 and 2 in slots 0 and 1, `w = 2` (P5 after line 4), and this display cursor. -/
def twoEntries (d : BitVec 2) : State :=
  { State.reset with
    slotEmergency := [(0, 0x01), (2, 0xF0), (3, 0x01), (4, 0x01), (5, 0x41),
      (19, 0x01), (21, 0xF0), (22, 0x02), (23, 0x01), (24, 0x42)]
    wEmergency := 2
    dEmergency := d }

/-- NORMAL with slot 0 enabled and both cursors out of range (V-RB-13, V-RB-14). -/
def outOfRange : State := { State.reset with slotNormal := [(0, 0x01)], wNormal := 7, dNormal := 7 }

/-- The row of a kind at the front of some bytes, by the machine's decoder. -/
def rowOf (kind : RowKind) (bytes : List Byte) : Decoded := decode .default kind bytes

/-- Well-formed for the machine. -/
def wf (i : Instr) : Bool := i.wellFormed .default

/-- Other parameters: the cap that trips one byte earlier (D6), another flag value (D14), one more slot, a larger
payload, another start marker. -/
def otherConfig : Config :=
  { Config.default with sof := 0x70, maxPayload := 80, maxAcc := 255, nNormal := 8, enValue := 0xFF }

/-- The responses after one instruction of the block with those parameters. -/
def answersOther (i : Instr) (s : State) : Option (List (List Byte)) :=
  (stateOf (execAt otherConfig i s)).map State.output

/-! ## WellFormed refuses a term for each check -/

theorem test_wf_payload_too_long : wf (Instr.encFrame 0 0 0 (List.replicate 256 0)) = false := by decide +kernel
theorem test_wf_payload_longest : wf (Instr.encFrame 0 0 0 (List.replicate 255 0)) = true := by decide +kernel
theorem test_wf_content_short : wf (Instr.rbAdd .normal (List.replicate 16 0)) = false := by decide +kernel
theorem test_wf_content_long : wf (Instr.rbAdd .normal (List.replicate 18 0)) = false := by decide +kernel
theorem test_wf_data_marker :
    wf (Instr.data 0x7E) = false ∧ wf (Instr.data 0x7F) = false ∧ wf (Instr.data 0x7D) = false ∧
    wf (Instr.data 0x7C) = true := by decide +kernel
theorem test_wf_frame_version : wf (Instr.evFrame ⟨0x01, 0, 0, 0, [], 0⟩) = false := by decide +kernel
theorem test_wf_frame_payload :
    wf (Instr.evFrame ⟨0x02, 0, 0, 0, List.replicate 250 0, 0⟩) = false ∧
    wf (Instr.evFrame ⟨0x02, 0, 0, 0, List.replicate 249 0, 0⟩) = true := by decide +kernel

/-! ## Decoding, every word written out from R54, R55, R61, R62, R63, R150, R181 -/

theorem test_decode_crcInit : rowOf .op [0x00] = .ok .crcInit [] := by decide +kernel
theorem test_decode_crcByte : rowOf .op [0x01, 0x31] = .ok (.crcByte 0x31) [] := by decide +kernel
theorem test_decode_crcRead : rowOf .op [0x02] = .ok .crcRead [] := by decide +kernel
theorem test_decode_stuff : rowOf .op [0x10, 0x7E] = .ok (.stuff 0x7E) [] := by decide +kernel
theorem test_decode_encFrame : rowOf .op [0x11, 0x04, 0x01, 0x07, 0x02, 0x48, 0x69, 0x20] =
    .ok (.encFrame 0x04 0x01 0x07 [0x48, 0x69]) [0x20] := by decide +kernel
theorem test_decode_decReset : rowOf .op [0x20] = .ok .decReset [] := by decide +kernel
theorem test_decode_decByte : rowOf .op [0x21, 0x7E] = .ok (.decByte 0x7E) [] := by decide +kernel
theorem test_decode_rbInit : rowOf .op [0x30] = .ok (.rbInit .normal) [] ∧
    rowOf .op [0x38] = .ok (.rbInit .emergency) [] := by decide +kernel
theorem test_decode_rbAdd : rowOf .op (0x39 :: content 1 0x41) = .ok (.rbAdd .emergency (content 1 0x41)) [] ∧
    rowOf .op (0x31 :: content 1 0x41) = .ok (.rbAdd .normal (content 1 0x41)) [] := by decide +kernel
theorem test_decode_rbFind : rowOf .op [0x32] = .ok (.rbFind .normal) [] ∧
    rowOf .op [0x3A] = .ok (.rbFind .emergency) [] := by decide +kernel
theorem test_decode_rbAdv : rowOf .op [0x33] = .ok (.rbAdv .normal) [] ∧
    rowOf .op [0x3B] = .ok (.rbAdv .emergency) [] := by decide +kernel
theorem test_decode_rbCount : rowOf .op [0x34] = .ok (.rbCount .normal) [] ∧
    rowOf .op [0x3C] = .ok (.rbCount .emergency) [] := by decide +kernel
theorem test_decode_rbRstd : rowOf .op [0x35] = .ok (.rbRstd .normal) [] ∧
    rowOf .op [0x3D] = .ok (.rbRstd .emergency) [] := by decide +kernel
theorem test_decode_rbRead : rowOf .op [0x36] = .ok (.rbRead .normal) [] ∧
    rowOf .op [0x3E] = .ok (.rbRead .emergency) [] := by decide +kernel
theorem test_decode_wire_bytes : rowOf .wireByte [0x7E] = .ok .sof [] ∧ rowOf .wireByte [0x7F] = .ok .eof [] ∧
    rowOf .wireByte [0x7D] = .ok .esc [] ∧ rowOf .wireByte [0x5E] = .ok (.data 0x5E) [] := by decide +kernel
theorem test_decode_wire_pairs : rowOf .wirePair [0x7D, 0x5E] = .ok .escPair7E [] ∧
    rowOf .wirePair [0x7D, 0x5F] = .ok .escPair7F [] ∧ rowOf .wirePair [0x7D, 0x5D] = .ok .escPair7D [] := by
  decide +kernel
theorem test_decode_types :
    rowOf .frameType [0x01] = .ok .typeStatus [] ∧ rowOf .frameType [0x02] = .ok .typeTime [] ∧
    rowOf .frameType [0x03] = .ok .typeCall [] ∧ rowOf .frameType [0x04] = .ok .typeNotify [] ∧
    rowOf .frameType [0x05] = .ok .typePing [] ∧ rowOf .frameType [0x10] = .ok .typeAck [] := by decide +kernel
theorem test_decode_events : rowOf .eventKind [0x00] = .ok .evNone [] ∧
    rowOf .eventKind [0x01, 0x02, 0x05, 0x00, 0x00, 0x00, 0xE9, 0xCA] =
      .ok (.evFrame ⟨0x02, 0x05, 0, 0, [], 0xE9CA⟩) [] ∧
    rowOf .eventKind [0x02, 0x04] = .ok (.evBad .crcMismatch) [] := by decide +kernel
theorem test_decode_reasons : rowOf .badReason [0x01] = .ok .tooShort [] ∧
    rowOf .badReason [0x02] = .ok .badVersion [] ∧ rowOf .badReason [0x03] = .ok .lenMismatch [] ∧
    rowOf .badReason [0x04] = .ok .crcMismatch [] ∧ rowOf .badReason [0x05] = .ok .overflow [] := by decide +kernel

/-- Reserved values are refused, not read as a neighbour (R64, R54, R150, R181). -/
theorem test_decode_refuses : rowOf .op [0x37] = .rejected (.unassigned 0x37) ∧
    rowOf .op [0x3F] = .rejected (.unassigned 0x3F) ∧ rowOf .op [0x12] = .rejected (.unassigned 0x12) ∧
    rowOf .wirePair [0x7D, 0x5C] = .rejected .notInTable ∧ rowOf .frameType [0x06] = .rejected .notInTable ∧
    rowOf .badReason [0x06] = .rejected .notInTable ∧ rowOf .eventKind [0x03] = .rejected .notInTable ∧
    rowOf .op [0x01] = .rejected (.truncated 0x01) := by decide +kernel

/-- The table's own numbering (log 13): a request, a pair written first wire byte first, a TYPE value, a received
byte. -/
theorem test_table_words : decodeTableWord 8 0x3A = some (.rbFind .emergency) ∧
    decodeTableWord 8 0x11 = some (.encFrame 0 0 0 []) ∧ decodeTableWord 16 0x7D5E = some .escPair7E ∧
    decodeTableWord 8 0x05 = some .typePing ∧ decodeTableWord 8 0x7E = some .sof := by decide +kernel

/-! ## One step each -/

theorem test_crcInit : (stateOf (exec .crcInit { State.reset with crc := 0xB915 })).map State.crc = some 0xFFFF := by
  decide +kernel
/-- V-CRC-11, V-CRC-4. -/
theorem test_crcByte : (stateOf (exec (.crcByte 0x31) State.reset)).map State.crc = some 0xC782 ∧
    (stateOf (exec (.crcByte 0xFF) State.reset)).map State.crc = some 0xFF00 := by decide +kernel
theorem test_crcRead : answers .crcRead { State.reset with crc := 0x29B1 } = some [[0x29, 0xB1]] := by decide +kernel
/-- V-CRC-1, V-CRC-2, V-CRC-9. -/
theorem test_crc16 : crc16 .default [] = 0xFFFF ∧
    crc16 .default [0x31, 0x32, 0x33, 0x34, 0x35, 0x36, 0x37, 0x38, 0x39] = 0x29B1 ∧
    crc16 .default [0x02, 0x05, 0x00, 0x00, 0x00] = 0xE9CA := by decide +kernel
/-- V-STF-2, V-STF-5. -/
theorem test_stuff : answers (.stuff 0x7F) State.reset = some [[0x7D, 0x5F]] ∧
    answers (.stuff 0x80) State.reset = some [[0x80]] := by decide +kernel
/-- V-ENC-5: escapes in SEQ and payload. -/
theorem test_encFrame_escapes : answers (.encFrame 0x04 0x00 0x7E [0x7E, 0x7F, 0x7D]) State.reset =
    some [[0x7E, 0x02, 0x04, 0x00, 0x7D, 0x5E, 0x03, 0x7D, 0x5E, 0x7D, 0x5F, 0x7D, 0x5D, 0x42, 0xF8, 0x7F]] := by
  decide +kernel
/-- V-ENC-6: a marker in the CRC's low byte. -/
theorem test_encFrame_crc_escaped : answers (.encFrame 0x10 0x00 0x02 [0x05, 0x01, 0x00]) State.reset =
    some [[0x7E, 0x02, 0x10, 0x00, 0x02, 0x03, 0x05, 0x01, 0x00, 0x8E, 0x7D, 0x5D, 0x7F]] := by decide +kernel
theorem test_decReset : decAfter .decReset (inFrame true [0x02]) = some (false, false, []) := by decide +kernel
/-- V-DEC-22: an escaped byte is unmasked whatever it is; V-DEC-17: an escape marker out of frame does nothing. -/
theorem test_decByte : decAfter (.decByte 0x7E) (inFrame true []) = some (true, false, [0x5E]) ∧
    decAfter (.decByte 0x7D) State.reset = some (false, false, []) := by decide +kernel
/-- V-DEC-9, V-DEC-10: the 256th byte is stored, the 257th aborts. -/
theorem test_decByte_overflow :
    answers (.decByte 0x55) (inFrame false (List.replicate 255 0x55)) = some [[0x00]] ∧
    answers (.decByte 0x55) (inFrame false (List.replicate 256 0x55)) = some [[0x02, 0x05]] := by decide +kernel
theorem test_rbInit :
    stateOf (exec (.rbInit .emergency) (twoEntries 2)) = some { State.reset with output := [[]] } := by decide +kernel
/-- P5 line 16: the third entry fills the buffer and the write cursor wraps; V-RB-14: an out-of-range cursor is 0. -/
theorem test_rbAdd :
    (stateOf (exec (.rbAdd .emergency (content 3 0x43)) (twoEntries 0))).map
      (fun t => (t.wEmergency, t.slotBytes .default .emergency 2)) = some (0, [0x01, 0x00] ++ content 3 0x43) ∧
    (stateOf (exec (.rbAdd .normal (content 9 0x5A)) outOfRange)).map
      (fun t => (t.wNormal, t.slotBytes .default .normal 0)) = some (1, [0x01, 0x00] ++ content 9 0x5A) := by
  decide +kernel
/-- V-RB-5: scan order 2, 0; V-RB-1: nothing enabled. -/
theorem test_rbFind : answers (.rbFind .emergency) (twoEntries 2) = some [[0x01, 0x00]] ∧
    answers (.rbFind .emergency) State.reset = some [[0x00, 0x00]] := by decide +kernel
/-- V-RB-6, P5 line 9. -/
theorem test_rbAdv : (stateOf (exec (.rbAdv .emergency) (twoEntries 2))).map State.dEmergency = some 0 ∧
    (stateOf (exec (.rbAdv .emergency) (twoEntries 0))).map State.dEmergency = some 1 := by decide +kernel
theorem test_rbCount : answers (.rbCount .emergency) (twoEntries 1) = some [[0x02]] ∧
    answers (.rbCount .normal) (twoEntries 1) = some [[0x00]] := by decide +kernel
theorem test_rbRstd : stateOf (exec (.rbRstd .emergency) (twoEntries 2)) =
    some { twoEntries 0 with output := [[]] } := by decide +kernel
/-- P5 lines 10 and 14. -/
theorem test_rbRead : answers (.rbRead .emergency) (twoEntries 1) = some [[0x01, 0x00] ++ content 2 0x42] ∧
    answers (.rbRead .emergency) (twoEntries 2) = some [List.replicate 19 0x00] := by decide +kernel
/-- R104, R107. -/
theorem test_sof : decAfter .sof State.reset = some (true, false, []) ∧
    decAfter .sof (inFrame false [0x01, 0x02]) = some (true, false, []) := by decide +kernel
/-- V-DEC-1 and V-DEC-5 at their last byte. -/
theorem test_eof :
    answers .eof (inFrame false [0x02, 0x05, 0x00, 0x00, 0x00, 0xE9, 0xCA]) =
      some [[0x01, 0x02, 0x05, 0x00, 0x00, 0x00, 0xE9, 0xCA]] ∧
    answers .eof (inFrame false [0x02, 0x05, 0x00, 0x00, 0x00, 0xE9, 0xCB]) = some [[0x02, 0x04]] := by decide +kernel
/-- V-DEC-20, V-DEC-21, V-DEC-4: the first failing check names the reason. -/
theorem test_eof_reasons :
    answers .eof (inFrame false [0x01, 0x05, 0x00, 0x00, 0x00, 0x00, 0x00]) = some [[0x02, 0x02]] ∧
    answers .eof (inFrame false [0x01, 0x05, 0x00]) = some [[0x02, 0x01]] ∧
    answers .eof (inFrame false [0x02, 0x05, 0x00, 0x00, 0x01, 0xF9, 0xEB]) = some [[0x02, 0x03]] := by decide +kernel
/-- V-DEC-11: no overflow check at the escape marker. -/
theorem test_esc : decAfter .esc (inFrame false [0x02]) = some (true, true, [0x02]) ∧
    answers .esc (inFrame false (List.replicate 256 0x55)) = some [[0x00]] := by decide +kernel
/-- V-DEC-22: `41` after an escape marker is `61`. -/
theorem test_data : decAfter (.data 0x41) (inFrame false [0x02]) = some (true, false, [0x02, 0x41]) ∧
    decAfter (.data 0x41) (inFrame true []) = some (true, false, [0x61]) := by decide +kernel
/-- P3 bytes 7 to 12. -/
theorem test_pairs : decAfter .escPair7E (inFrame false [0x02]) = some (true, false, [0x02, 0x7E]) ∧
    decAfter .escPair7F (inFrame false [0x02]) = some (true, false, [0x02, 0x7F]) ∧
    decAfter .escPair7D (inFrame false [0x02]) = some (true, false, [0x02, 0x7D]) := by decide +kernel
/-- R58: each TYPE value is stored as it is. -/
theorem test_types : decAfter .typeStatus (inFrame false [0x02]) = some (true, false, [0x02, 0x01]) ∧
    decAfter .typeTime (inFrame false [0x02]) = some (true, false, [0x02, 0x02]) ∧
    decAfter .typeCall (inFrame false [0x02]) = some (true, false, [0x02, 0x03]) ∧
    decAfter .typeNotify (inFrame false [0x02]) = some (true, false, [0x02, 0x04]) ∧
    decAfter .typePing (inFrame false [0x02]) = some (true, false, [0x02, 0x05]) ∧
    decAfter .typeAck (inFrame false [0x02]) = some (true, false, [0x02, 0x10]) := by decide +kernel
/-- R63: the responses of the three events. -/
theorem test_events : answers .evNone State.reset = some [[0x00]] ∧
    answers (.evFrame ⟨0x02, 0x04, 0x00, 0x07, [0x48, 0x69], 0xD12B⟩) (inFrame false [0x02]) =
      some [[0x01, 0x02, 0x04, 0x00, 0x07, 0x02, 0x48, 0x69, 0xD1, 0x2B]] ∧
    answers (.evBad .overflow) (inFrame false [0x02]) = some [[0x02, 0x05]] := by decide +kernel
/-- R181's codes, and the discard of R185. -/
theorem test_reasons : answers .tooShort State.reset = some [[0x02, 0x01]] ∧
    answers .badVersion State.reset = some [[0x02, 0x02]] ∧ answers .lenMismatch State.reset = some [[0x02, 0x03]] ∧
    answers .crcMismatch State.reset = some [[0x02, 0x04]] ∧ answers .overflow State.reset = some [[0x02, 0x05]] ∧
    decAfter .overflow (inFrame true [0x02]) = some (false, false, []) := by decide +kernel

/-- A table word placed on the reset state is what the next step runs: `3A` with its response, `11` with its operand
bytes zero, a pair out of frame with its two events, and a TYPE value at body index 1. -/
theorem test_withFetchWord :
    (stateOf (step (State.reset.withFetchWord 8 0x3A))).map State.output = some [[0x00, 0x00]] ∧
    ((stateOf (step (State.reset.withFetchWord 8 0x11))).map (fun t => t.output.map List.head?)) = some [some 0x7E] ∧
    (stateOf (step (State.reset.withFetchWord 16 0x7D5F))).map State.output = some [[0x00], [0x00]] ∧
    (stateOf (step (State.reset.withFetchWord 8 0x05))).map State.decBuf = some [0x02, 0x05] := by decide +kernel

/-- R66: FEED's list, indexes from 0 (P4's order: a report, then a frame; the NONEs dropped). -/
theorem test_feedEvents :
    feedEvents .default [[0x00], [0x02, 0x04], [0x00], [0x01, 0x02, 0x05, 0x00, 0x00, 0x00, 0xE9, 0xCA]] =
      [(1, .bad .crcMismatch), (3, .frame ⟨0x02, 0x05, 0x00, 0x00, [], 0xE9CA⟩)] := by decide +kernel

/-- The response of a pseudo-operation that runs to its end. -/
def pseudoAnswer (o : PseudoOp) (s : State) : Option PseudoResponse :=
  match runPseudo o s with
  | .next (_, r) => some r
  | _ => none

/-- R66: V-DEC-2 as DECODE; its end marker alone as FEED, from the state before it; V-CRC-1 as CRC16. -/
theorem test_pseudo : pseudoAnswer (.decode [0x7E, 0x7F]) (inFrame true [0x02]) = some (.events [(1, .bad .tooShort)]) ∧
    pseudoAnswer (.feed [0x7F]) (inFrame false []) = some (.events [(0, .bad .tooShort)]) ∧
    pseudoAnswer (.crc16 []) State.reset = some (.crc [0xFF, 0xFF]) := by decide +kernel

/-! ## Witnesses: a state and operands that meet the hypotheses of each obligation -/

theorem witness_ResetAppliedAndWaiting :
    (inFrame true [0x02]).input = [] ∧
    { inFrame true [0x02] with input := [.reset, .wire [0x7E]] }.input = .reset :: [.wire [0x7E]] := by decide +kernel

theorem witness_PartialResetsInAnyOrder :
    [Instr.rbInit .emergency, .decReset, .crcInit, .rbInit .normal].Perm
      [.crcInit, .decReset, .rbInit .normal, .rbInit .emergency] := by decide +kernel

/-- A request with bytes left in its chunk; received bytes with a TYPE byte next, and an escape pair next. -/
theorem witness_StepRunsDecoded :
    decodeOp .default [0x21, 0x7E, 0x20] = .ok (.decByte 0x7E) [0x20] ∧
    decodeWire .default (inFrame false [0x02]).atTypeByte [0x05, 0x00] = .ok .typePing [0x00] ∧
    decodeWire .default (inFrame false [0x02]).atTypeByte [0x7D, 0x5E] = .ok .escPair7E [] ∧
    decodeWire .default State.reset.atTypeByte [0x05] = .ok (.data 0x05) [] := by decide +kernel

/-- The ends of every range of R64, and their assigned neighbours. -/
theorem witness_UnassignedCode :
    (∀ op ∈ ([0x03, 0x0F, 0x12, 0x1F, 0x22, 0x2F, 0x37, 0x3F, 0x40, 0xFF] : List Byte), UnassignedCode op) ∧
    (∀ op ∈ ([0x02, 0x10, 0x11, 0x20, 0x21, 0x30, 0x36, 0x38, 0x3E] : List Byte), ¬ UnassignedCode op) := by
  unfold UnassignedCode; decide +kernel

/-- CRC_BYTE without its byte; ENC_FRAME without its last payload byte. -/
theorem witness_TruncatedRequestStops :
    encode .default (.crcByte 0x31) = 0x01 :: [] ++ [0x31] ∧
    encode .default (.encFrame 0x04 0x00 0x07 [0x48, 0x69]) = 0x11 :: [0x04, 0x00, 0x07, 0x02, 0x48] ++ [0x69] ∧
    (Instr.encFrame 0x04 0x00 0x07 [0x48, 0x69]).wellFormed .default = true := by decide +kernel

/-- AccOk at both ends of its range, and a state without it. -/
theorem witness_AccOk : State.reset.AccOk .default ∧ (inFrame false (List.replicate 256 0x55)).AccOk .default ∧
    ¬ (inFrame false (List.replicate 257 0x55)).AccOk .default := by
  unfold State.AccOk; decide +kernel

/-- A program of three requests in one chunk (P2's first lines). -/
theorem witness_RequestStreamRunsInOrder :
    (∀ i ∈ [Instr.decReset, .decByte 0x7E, .decByte 0x02], i.wellFormed .default = true ∧ i.kind = .op) ∧
    [Instr.decReset, .decByte 0x7E, .decByte 0x02].flatMap (encode .default) = [0x20, 0x21, 0x7E, 0x21, 0x02] := by
  decide +kernel

theorem witness_WireChunkIsFeed : ({ State.reset with input := [.wire [0x7E, 0x7D, 0x5E]] } : State).AccOk .default :=
  Nat.zero_le _

theorem witness_EncFrameAnswersTheFrame : (List.replicate 255 (0x7E : Byte)).length ≤ 255 := by decide +kernel

theorem witness_PayloadIsTruncatedSilently : (List.replicate 64 (0x7E : Byte)).length = 64 := by decide +kernel

/-- The buffer one below its capacity (stored) and at it (aborted), escaping and not. -/
theorem witness_append :
    (∀ e, (inFrame e (List.replicate 255 0x55)).decInFrame = true ∧ (inFrame e []).decEscaping = e) ∧
    (afterAppend .default 0x5E (inFrame false (List.replicate 255 0x55))).decBuf.length = 256 ∧
    (afterAppend .default 0x5E (inFrame false (List.replicate 256 0x55))).output = [[0x02, 0x05]] ∧
    isMarker .default 0x5E = false := by decide +kernel

/-- Bodies of 6 and of 7 bytes, and each later check failing alone. -/
theorem witness_EndMarkerParsesTheBody :
    endResponse [0x02, 0x05, 0x00, 0x00, 0x00, 0xE9] = [0x02, 0x01] ∧
    endResponse [0x01, 0x05, 0x00, 0x00, 0x00, 0x07, 0x18] = [0x02, 0x02] ∧
    endResponse [0x02, 0x05, 0x00, 0x00, 0x01, 0xF9, 0xEB] = [0x02, 0x03] ∧
    endResponse [0x02, 0x05, 0x00, 0x00, 0x00, 0xE9, 0xCB] = [0x02, 0x04] ∧
    endResponse [0x02, 0x05, 0x00, 0x00, 0x00, 0xE9, 0xCA] = [0x01, 0x02, 0x05, 0x00, 0x00, 0x00, 0xE9, 0xCA] := by
  decide +kernel

/-- An end marker that delivers a frame. -/
theorem witness_DeliveredFramesAreValid :
    answers (.decByte 0x7F) (inFrame false [0x02, 0x05, 0x00, 0x00, 0x00, 0xE9, 0xCA]) =
      some ((inFrame false []).output ++ [0x01 :: [0x02, 0x05, 0x00, 0x00, 0x00, 0xE9, 0xCA]]) := by decide +kernel

/-- The three decoder states of R100, each within the buffer's capacity, and a data byte. -/
theorem witness_TransitionTable :
    State.reset.decInFrame = false ∧
    (inFrame false [0x02]).decInFrame = true ∧ (inFrame false [0x02]).decEscaping = false ∧
    (inFrame true [0x02]).decInFrame = true ∧ (inFrame true [0x02]).decEscaping = true ∧
    State.reset.AccOk .default ∧ (inFrame false [0x02]).AccOk .default ∧ (inFrame true [0x02]).AccOk .default ∧
    isMarker .default 0x41 = false := by
  unfold State.AccOk; decide +kernel

/-- An escape pair met while escaping, the buffer one below its capacity: the second byte finds it full. -/
theorem witness_EscapePairStandsForOneByte :
    answers .escPair7E (inFrame true (List.replicate 255 0x55)) = some [[0x00], [0x02, 0x05]] ∧
    answers .escPair7E (inFrame true (List.replicate 256 0x55)) = some [[0x02, 0x05], [0x00]] := by decide +kernel

theorem witness_DecodeOfEncodeIsTheFrame :
    (List.replicate 64 (0x7E : Byte)).length ≤ 64 ∧ State.reset.decInFrame = false ∧
    State.reset.decEscaping = false ∧ State.reset.decBuf = [] := by decide +kernel

/-- V-DEC-6's garbage, and escaped markers; V-DEC-7's garbage is not quiet. -/
theorem witness_ResynchronisationRecovers :
    quietGarbage .default false [0x01, 0x02, 0x03] = true ∧
    quietGarbage .default false [0x7D, 0x7E, 0x7D, 0x7F] = true ∧
    quietGarbage .default false [0x01, 0x02, 0x7D] = false ∧
    quietGarbage .default false (List.replicate 256 0x55) = true := by
  decide +kernel

/-- First clause, at the machine's cap; second, at a cap of 255. -/
theorem witness_OverflowForcesResync :
    ((List.replicate 256 (0x55 : Byte)).length = 256 ∧
      (∀ x ∈ List.replicate 256 (0x55 : Byte), isMarker .default x = false) ∧
      (0x7E : Byte) ∉ [(0x7F : Byte), 0x55]) ∧
    (List.replicate 255 (0x7E : Byte)).length = otherConfig.maxAcc ∧
    (∀ x ∈ List.replicate 255 (0x7E : Byte), isMarker otherConfig x = false) ∧
    otherConfig.sof ∉ [(0x7E : Byte), 0x55] := by decide +kernel

theorem witness_content : (content 9 0x5A).length = 17 ∧ (content 9 0x5A).length + 2 = otherConfig.slotBytes := by
  decide +kernel

/-- Cursors at the ends of their ranges and past them: the slot written. -/
theorem witness_RbAddWritesTheWholeSlot :
    ({ outOfRange with wNormal := 6 } : State).wCursor .normal = 6 ∧ outOfRange.wCursor .normal = 7 ∧
    (stateOf (exec (.rbAdd .normal (content 9 0x5A)) { outOfRange with wNormal := 6 })).map State.wNormal = some 0 := by
  decide +kernel

/-- First clause: from `d = 2` slot 0 is the first enabled, one position on; from `d = 7`, out of range, slot 0 at once
(V-RB-13). Second clause: nothing enabled. -/
theorem witness_RbFindMovesToFirstEnabled :
    ((twoEntries 2).slots .emergency).read (19 * ((2 + 1) % 3)) ≠ 0x00 ∧
    ((twoEntries 2).slots .emergency).read (19 * ((2 + 0) % 3)) = 0x00 ∧
    answers (.rbFind .normal) outOfRange = some [[0x01, 0x00]] ∧
    (∀ j, j < capacity .default .normal → (State.reset.slots .normal).read (19 * j) = 0x00) := by decide +kernel

theorem witness_RbAdvCycles :
    (twoEntries 2).dCursor .emergency < capacity .default .emergency ∧
    State.reset.dCursor .normal < capacity .default .normal := by
  decide +kernel

/-- The read of an out-of-range cursor is slot 0's. -/
theorem witness_RbReadAnswersTheSlot :
    answers (.rbRead .normal) outOfRange = some [0x01 :: List.replicate 18 0x00] := by decide +kernel

/-- V-RB-9's opening and one entry, read back. -/
theorem witness_AddedEntryIsReadBack :
    (stateOf (execAll [.rbInit .emergency, .rbAdd .emergency (content 9 0x5A), .rbFind .emergency, .rbRead .emergency,
      .rbCount .emergency] (twoEntries 1))).map State.output =
      some [[], [], [0x01, 0x00], [0x01, 0x00] ++ content 9 0x5A, [0x01]] := by decide +kernel

/-- Fewer, exactly as many, and more entries than slots. -/
theorem witness_LappingKeepsTheMostRecent :
    (∀ c ∈ [content 1 0x41, content 2 0x42, content 3 0x43, content 4 0x44], c.length = 17) ∧
    capacity .default .emergency = 3 := by decide +kernel

theorem witness_EnabledSlotsStayEnabled :
    (stateOf (exec (.rbAdd .emergency (content 3 0x43)) (twoEntries 0))).isSome = true ∧
    Instr.rbAdd .emergency (content 3 0x43) ≠ .rbInit .emergency ∧
    ((twoEntries 0).slots .emergency).read (19 * 1) ≠ 0x00 := by decide +kernel

theorem witness_InstructionsWriteOnlyTheirUnit :
    (stateOf (exec (.rbAdv .normal) outOfRange)).isSome = true ∧
    (stateOf (exec .eof (inFrame false []))).isSome = true := by
  decide +kernel

theorem witness_DifferentUnitsCommute :
    Instr.unit (.rbAdv .normal) ≠ Instr.unit (.rbAdv .emergency) ∧ Instr.unit (.crcByte 0x31) ≠ Instr.unit .eof := by
  decide +kernel

/-- The decoder invariants in frame with a full buffer. -/
theorem witness_DecoderInvariantsAreKept : (inFrame true (List.replicate 256 0x55)).DecInv .default :=
  ⟨fun _ => rfl, nofun, by unfold State.AccOk; decide +kernel⟩

/-- A cursor out of range that an instruction changes, and one it leaves; RB_FIND's and RB_ADD's own cursors. -/
theorem witness_ChangedCursorsAreInRange :
    (stateOf (exec (.rbAdv .normal) outOfRange)).map (fun t => (t.dCursor .normal, t.wCursor .normal)) = some (1, 7) ∧
    (stateOf (exec (.rbFind .normal) outOfRange)).map (fun t => t.dCursor .normal) = some 0 ∧
    (stateOf (exec (.rbAdd .normal (content 9 0x5A)) outOfRange)).map (fun t => t.wCursor .normal) = some 1 := by
  decide +kernel

/-- In frame with two entries stored, and a request issued. -/
def busy : State := { twoEntries 2 with decInFrame := true, decBuf := [0x02], input := [.request [0x3A]] }

/-- The whole block's invariants there, and a step from there. -/
theorem witness_StepKeepsTheInvariants : busy.Inv .default ∧ (stateOf (step busy)).isSome = true := by
  refine ⟨⟨⟨fun _ => rfl, nofun, ?_⟩, fun k => ?_⟩, by decide +kernel⟩
  · unfold State.AccOk; decide +kernel
  · have ok : ∀ j, j < capacity .default k → busy.SlotOk .default k j := by
      cases k <;> (unfold State.SlotOk; decide +kernel)
    cases k <;> refine ⟨by decide +kernel, ?_, by decide +kernel, by decide +kernel, ok⟩ <;>
      (unfold Memory.inRange; decide +kernel)

/-- The other parameters meet R4's constraints and fit the formats, and so does every hypothesis about them. -/
theorem witness_otherConfig : otherConfig.Valid ∧ otherConfig.Fits ∧
    (List.replicate 80 (0x7E : Byte)).length ≤ otherConfig.maxPayload ∧
    (Instr.data 0x7E).wellFormed otherConfig = true := by
  refine ⟨⟨by decide, by decide⟩, ?_, by decide +kernel⟩
  constructor <;> decide

/-- The invariants at other parameters, and a step of the block with them. -/
theorem witness_StepKeepsTheInvariants_other :
    (State.resetAt otherConfig).Inv otherConfig ∧
    (stateOf (stepAt otherConfig { State.resetAt otherConfig with input := [.wire [0x70]] })).isSome = true := by
  refine ⟨⟨⟨nofun, fun _ => ⟨rfl, rfl⟩, Nat.zero_le _⟩, fun k => ?_⟩, by decide +kernel⟩
  cases k <;> exact ⟨rfl, nofun, by decide, by decide, fun _ _ => .inl fun _ _ => rfl⟩

/-- The constants of R4 as parameters: the flag RB_ADD writes (D14), the byte that overflows (D6), the start marker. -/
theorem test_parameters :
    (stateOf (execAt otherConfig (.rbAdd .normal (content 9 0x5A)) State.reset)).map
      (fun t => t.slotBytes otherConfig .normal 0) = some ([0xFF, 0x00] ++ content 9 0x5A) ∧
    answersOther (.decByte 0x55) (inFrame false (List.replicate 255 0x55)) = some [[0x02, 0x05]] ∧
    answersOther (.stuff 0x70) State.reset = some [[0x7D, 0x50]] ∧
    answersOther (.stuff 0x7E) State.reset = some [[0x7E]] := by decide +kernel

theorem witness_DecodeOfEncode :
    wf (.encFrame 0x04 0x00 0x07 [0x48, 0x69]) = true ∧ wf (.rbAdd .normal (content 9 0x5A)) = true ∧
    wf (.evFrame ⟨0x02, 0x05, 0, 0, List.replicate 249 0x41, 0xE9CA⟩) = true := by decide +kernel

theorem witness_EncodeOfDecode : rowOf .op [0x3A, 0x20] = .ok (.rbFind .emergency) [0x20] ∧
    rowOf .wirePair [0x7D, 0x5D] = .ok .escPair7D [] := by decide +kernel

end Sys2Proof.Tests
end

/-! The state after reset and the four partial resets (10_state R26): each partial reset gives one unit its reset
contents, and the four together are `applyReset`. -/

namespace Sys2Proof.Machine

/-! ### The reset state, read through the accessors of a ring buffer -/

@[simp] theorem slots_resetAt (p : Config) (k : MsgClass) : (State.resetAt p).slots k = Memory.zeroed := by
  cases k <;> rfl

@[simp] theorem wCursor_resetAt (p : Config) (k : MsgClass) : (State.resetAt p).wCursor k = 0 := by
  cases k <;> rfl

@[simp] theorem dCursor_resetAt (p : Config) (k : MsgClass) : (State.resetAt p).dCursor k = 0 := by
  cases k <;> rfl

/-! ### The four partial resets as updates of one unit each -/

theorem exec_crcInit (s : State) :
    exec .crcInit s = .next (((UnitUpdate.crcGenerator 0xFFFF).apply s).addResponses [[]]) := rfl

theorem exec_decReset (s : State) :
    exec .decReset s = .next (((UnitUpdate.decoder false false []).apply s).addResponses [[]]) := rfl

theorem exec_rbInit (k : MsgClass) (s : State) :
    exec (.rbInit k) s = .next (((UnitUpdate.ring k Memory.zeroed 0 0).apply s).addResponses [[]]) := rfl

/-- The units with contents (R10) are the CRC generator, the decoder and the two rings: with all four at their reset
contents the block is reset. -/
theorem apply_four_resets (s : State) :
    (UnitUpdate.ring .emergency Memory.zeroed 0 0).apply ((UnitUpdate.ring .normal Memory.zeroed 0 0).apply
      ((UnitUpdate.decoder false false []).apply ((UnitUpdate.crcGenerator 0xFFFF).apply s))) =
    applyReset .default s := rfl

@[simp] theorem applyReset_block (p : Config) (s : State) : (applyReset p s).block = (State.resetAt p).block := rfl

/-- R26's sequence: reset itself, and one empty response per operation. -/
theorem execAll_partialResets (s : State) :
    execAll [.crcInit, .decReset, .rbInit .normal, .rbInit .emergency] s =
      .next ((applyReset .default s).addResponses [[], [], [], []]) := by
  simp only [execAll, andThen, exec_crcInit, exec_decReset, exec_rbInit, apply_addResponses,
    addResponses_addResponses, apply_four_resets, List.cons_append, List.nil_append]

/-- Settles O1: the fields are read off the reset state, and R26's sequence answers what `applyReset` gives. -/
theorem resetValues : Obligations.ResetValues := by
  refine ⟨rfl, rfl, rfl, rfl, fun k a _ => ?_, fun k => ?_, fun s => ?_⟩
  · rw [State.reset, slots_resetAt, read_zeroed]
  · exact ⟨wCursor_resetAt .default k, dCursor_resetAt .default k⟩
  · exact ⟨_, execAll_partialResets s, by rw [addResponses_block, applyReset_block, State.reset]⟩

end Sys2Proof.Machine

/-! A request at the front of the input, and the unassigned operation codes (30_encoding R64, 60_exceptions R190): the
decoder rejects such a code by name, whatever follows it, and taking it is giving the `ill` answer. -/

namespace Sys2Proof.Machine

/-- A chunk of requests is served by `fetchRequest`. -/
theorem fetch_of_request {p : Config} {s : State} {bytes : List Byte} {later : List Input}
    (h : s.input = .request bytes :: later) : fetch p s = fetchRequest p bytes later s := by
  simp only [fetch, h]

theorem decodeOp_of_unassigned (p : Config) {op : Byte} (rest : List Byte) (h : UnassignedCode op) :
    decodeOp p (op :: rest) = .rejected (.unassigned op) := by
  simp only [decodeOp, (unassigned_iff op).mp h]

/-- The code byte alone is taken: the bytes after it stay in the chunk. -/
theorem fetchRequest_of_unassigned (p : Config) {op : Byte} (rest : List Byte) (later : List Input) (s : State)
    (h : UnassignedCode op) :
    fetchRequest p (op :: rest) later s =
      .done (answerIllegal { s with input := chunkLeft .request rest later }) := by
  simp only [fetchRequest, decodeOp_of_unassigned p rest h, List.tail_cons]

/-- A step that finds no instruction ends in the state `fetch` gives. -/
theorem step_of_fetch_done {s t : State} (h : fetch .default s = .done t) : step s = .next t := by
  simp only [step, h]

/-- Settles O5: the decoder rejects the code, so the step is `answerIllegal` after taking the code byte. -/
theorem unassignedCodeAnswersIll : Obligations.UnassignedCodeAnswersIll := by
  intro s op rest later hop hin
  have hfetch : fetch .default s = .done (answerIllegal { s with input := chunkLeft .request rest later }) :=
    (fetch_of_request hin).trans (fetchRequest_of_unassigned .default rest later s hop)
  rw [step_of_fetch_done hfetch, chunkLeft_eq]
  rfl

end Sys2Proof.Machine

/-! The three operations of the CRC generator (40_crc16 R81 to R83) at the default parameters: their codes decode to
them, CRC_BYTE is `crcStep`, whose shifts are an iterated function of the register, and CRC_READ answers the register
itself. -/

namespace Sys2Proof.Machine

/-- The decoder reads an operation's own code byte as that operation, and goes on to its operands. -/
theorem decodeOp_codeOf (p : Config) (k : MsgClass) (o : Opcode) (rest : List Byte) :
    decodeOp p (codeOf k o :: rest) = decodeOperands p (codeOf k o) rest o := by
  simp only [decodeOp, lookupOp_codeOf]

/-! ### The register step at the defaults -/

/-- The bit shifted out is bit 15, and the polynomial is 1021 (R82, R86). -/
theorem crcShift_default :
    crcShift .default = fun c : Word16 => if c.getLsbD 15 then (c <<< 1) ^^^ 0x1021 else c <<< 1 := by
  funext c
  rw [crcShift, BitVec.msb_eq_getLsbD_last]

theorem crcShifts_eq_iterate (p : Config) (n : Nat) (c : Word16) : crcShifts p n c = (crcShift p)^[n] c := by
  induction n generalizing c with
  | zero => rfl
  | succ n ih => rw [crcShifts, ih, Function.iterate_succ_apply]

/-- The byte is taken in unreflected. -/
@[simp] theorem crcIn_default (b : Byte) : crcIn .default b = b := rfl

/-- R82's new register, written out. -/
theorem crcStep_default (c : Word16) (b : Byte) :
    crcStep .default c b = (fun c : Word16 => if c.getLsbD 15 then (c <<< 1) ^^^ 0x1021 else c <<< 1)^[8]
      (c ^^^ (b.setWidth 16 <<< 8)) := by
  rw [crcStep, crcShifts_eq_iterate, crcShift_default, crcIn_default]

/-- The register is given out unreflected, with nothing XORed in. -/
@[simp] theorem crcOut_default (c : Word16) : crcOut .default c = c := BitVec.xor_zero

/-- R33's two bytes as bit fields. -/
theorem beBytes_eq_extract (c : Word16) : beBytes c = [c.extractLsb' 8 8, c.extractLsb' 0 8] := by
  rw [beBytes, hiByte_eq_extract, loByte_eq_extract]

/-! ### CRC_BYTE and CRC_READ as updates of the CRC generator alone -/

theorem exec_crcByte (b : Byte) (s : State) :
    exec (.crcByte b) s = .next (((UnitUpdate.crcGenerator (crcStep .default s.crc b)).apply s).addResponses [[]]) :=
  rfl

theorem exec_crcRead (s : State) : exec .crcRead s = .next (s.addResponses [beBytes s.crc]) := by
  rw [exec, execCrcRead, execCrcReadAt, crcOut_default, respond_eq]

/-- Settles O10: the code has no operands, and CRC_INIT replaces the register's contents. -/
theorem crcInitLoadsInit : Obligations.CrcInitLoadsInit :=
  ⟨decodeOp_codeOf .default .normal .crcInit, exec_crcInit⟩

/-- Settles O11: CRC_BYTE replaces the register by `crcStep`, which at the defaults is eight of R82's shifts. -/
theorem crcByteShiftsEightTimes : Obligations.CrcByteShiftsEightTimes := by
  refine ⟨fun b rest => decodeOp_codeOf .default .normal .crcByte (b :: rest), fun b s => ?_⟩
  rw [exec_crcByte, crcStep_default]
  rfl

/-- Settles O12: CRC_READ only adds a response, and the bytes of `beBytes` are R83's two halves of the register. -/
theorem crcReadAnswersBigEndian : Obligations.CrcReadAnswersBigEndian := by
  refine ⟨decodeOp_codeOf .default .normal .crcRead, fun s => ?_⟩
  rw [exec_crcRead, beBytes_eq_extract]
  rfl

end Sys2Proof.Machine

/-! The frame encoder's two operations (41_frame_encoder R91 to R93) at the default parameters: their requests decode to
them, the payload operand having its own length before it, and each is one response that writes no unit (R90). -/

namespace Sys2Proof.Machine

/-! ### The request of ENC_FRAME (R62) -/

/-- A payload that follows its own length is read whole, whatever follows it. -/
theorem frameOp_of_length (op type flags seq : Byte) {payload : List Byte} (rest : List Byte)
    (h : payload.length < 256) :
    frameOp op (type :: flags :: seq :: byteOf payload.length :: (payload ++ rest)) =
      .ok (.encFrame type flags seq payload) rest := by
  have hfits : payload.length ≤ (payload ++ rest).length := by simp
  simp only [frameOp, toNat_byteOf h, if_pos hfits, List.take_left', List.drop_left']

/-! ### Stuffing and the covered bytes at the defaults -/

/-- R92 with the three markers, the escape byte and the mask of R4. -/
theorem stuff_default (b : Byte) :
    stuff .default b = if b = 0x7E ∨ b = 0x7F ∨ b = 0x7D then [0x7D, b ^^^ 0x20] else [b] :=
  ite_congr (propext (isMarker_default_iff b)) (fun _ => rfl) (fun _ => rfl)

/-- R91, R93: at most 64 payload bytes are covered, and LEN is the number of those covered. -/
theorem coveredBytes_default (type flags seq : Byte) (payload : List Byte) :
    coveredBytes .default type flags seq payload =
      [0x02, type, flags, seq, BitVec.ofNat 8 (min payload.length 64)] ++ payload.take 64 := by
  rw [coveredBytes, truncatePayload, List.length_take, Nat.min_comm, byteOf]

/-! ### STUFF and ENC_FRAME as one response each -/

theorem exec_stuff (b : Byte) (s : State) : exec (.stuff b) s = .next (s.addResponses [stuff .default b]) := rfl

theorem exec_encFrame (type flags seq : Byte) (payload : List Byte) (s : State) :
    exec (.encFrame type flags seq payload) s =
      .next (s.addResponses [encodeFrame .default type flags seq payload]) := rfl

/-- Settles O16: the code takes one byte, and the one response is `stuff` of it. -/
theorem stuffEscapesMarkers : Obligations.StuffEscapesMarkers := by
  refine ⟨fun b rest => decodeOp_codeOf .default .normal .stuff (b :: rest), fun b s => ?_⟩
  rw [exec_stuff, stuff_default]
  rfl

/-- Settles O17: the request carries its payload's length, and the one response is `encodeFrame`, whose body is the
covered bytes with their CRC. -/
theorem encFrameAnswersTheFrame : Obligations.EncFrameAnswersTheFrame := by
  refine ⟨fun type flags seq payload rest hlen => ?_, fun type flags seq payload s => ?_⟩
  · exact (decodeOp_codeOf .default .normal .encFrame _).trans
      (frameOp_of_length 0x11 type flags seq rest (Nat.lt_succ_of_le hlen))
  · refine ⟨_, _, rfl, rfl, ?_⟩
    rw [exec_encFrame, encodeFrame, encodeBody, coveredBytes_default, beBytes_eq_extract, funext stuff_default]
    rfl

end Sys2Proof.Machine

/-! The stream decoder (42_stream_decoder R101 to R126): a body parsed is the fields it was read from and writes back
the very same bytes, the end marker answers what the parse says, and no other case of DEC_BYTE answers a FRAME event. -/

namespace Sys2Proof.Machine

variable {p : Config}

/-! ### The parse of a body (R120 to R126) -/

/-- The fields R125 reads off a body. -/
def parsedFrame (p : Config) (body : List Byte) : Frame where
  version := bodyByte body 0
  type := bodyByte body 1
  flags := bodyByte body 2
  seq := bodyByte body 3
  payload := (coveredPart body).drop p.hdr
  crc16 := receivedCrc body

/-- A frame comes out of the parse only when all four checks pass (R121 to R124), and its fields are the body's. -/
theorem parseBody_ok {body : List Byte} {f : Frame} (h : parseBody p body = .ok f) :
    p.minBody ≤ body.length ∧ bodyByte body 0 = p.ver ∧ (bodyByte body 4).toNat = body.length - p.minBody ∧
      crc16 p (coveredPart body) = receivedCrc body ∧ f = parsedFrame p body := by
  unfold parseBody at h
  split at h; · cases h
  split at h; · cases h
  split at h; · cases h
  split at h; · cases h
  rename_i hmin hver hlen hcrc
  cases h
  exact ⟨not_lt.mp hmin, not_not.mp hver, not_not.mp hlen, not_not.mp hcrc, rfl⟩

theorem beBytes_receivedCrc (body : List Byte) :
    beBytes (receivedCrc body) = [bodyByte body (body.length - 2), bodyByte body (body.length - 1)] := by
  rw [beBytes, receivedCrc, hiByte_join16, loByte_join16]

/-- The fields of a body whose LEN is right, written out again, are the body as received. -/
theorem frameBody_parsedFrame (hhdr : p.hdr = 5) {body : List Byte} (hmin : 7 ≤ body.length)
    (hlen : (bodyByte body 4).toNat = body.length - 7) : frameBody (parsedFrame p body) = body := by
  have hpayload : (parsedFrame p body).payload.length = (bodyByte body 4).toNat := by
    simp only [parsedFrame, coveredPart, hhdr, List.length_drop, List.length_take]
    omega
  rw [frameBody, hpayload, byteOf_toNat]
  simp only [parsedFrame, beBytes_receivedCrc, hhdr]
  exact (body_split body hmin).symm

/-- The bytes a frame's CRC covers are its header and its payload (R124). -/
theorem coveredPart_frameBody (f : Frame) :
    coveredPart (frameBody f) = [f.version, f.type, f.flags, f.seq, byteOf f.payload.length] ++ f.payload :=
  List.take_left' (by simp [frameBody, beBytes])

/-! ### The answer to an end marker (R108) -/

/-- The event that reports the outcome of a parse. -/
def parsedEvent : Except BadReason Frame → Event
  | .ok f => .frame f
  | .error r => .bad r

/-- R108 in a state whose buffer is within its capacity: one answer, then out of frame, whatever the parse says. -/
theorem inEof_eq {s : State} (h : s.AccOk p) :
    inEof p s = .next (respond (eventBytes (parsedEvent (parseBody p s.decBuf))) (leaveFrame s)) := by
  unfold State.AccOk at h
  rw [inEof, if_pos h]
  cases parseBody p s.decBuf <;> rfl

theorem inEof_refused {s : State} (h : ¬ s.AccOk p) : inEof p s = .refused .accLenOutOfRange := if_neg h

/-- R120's chain of answers, in the terms of the parse. -/
theorem endResponse_eq (body : List Byte) :
    endResponse body =
      if body.length < 7 then [0x02, 0x01]
      else if bodyByte body 0 ≠ 0x02 then [0x02, 0x02]
      else if (bodyByte body 4).toNat ≠ body.length - 7 then [0x02, 0x03]
      else if crc16 .default (coveredPart body) ≠ receivedCrc body then [0x02, 0x04]
      else 0x01 :: body := rfl

/-- The response bytes of the parse's outcome, check by check (R121 to R124). -/
theorem eventBytes_parsedEvent_default (body : List Byte) :
    eventBytes (parsedEvent (parseBody .default body)) = endResponse body := by
  rw [parseBody, endResponse_eq]
  by_cases hmin : body.length < 7
  · rw [if_pos hmin, if_pos hmin]; rfl
  rw [if_neg hmin, if_neg hmin]
  by_cases hver : bodyByte body 0 ≠ 0x02
  · rw [if_pos hver, if_pos hver]; rfl
  rw [if_neg hver, if_neg hver]
  by_cases hlen : (bodyByte body 4).toNat ≠ body.length - 7
  · rw [if_pos hlen, if_pos hlen]; rfl
  rw [if_neg hlen, if_neg hlen]
  by_cases hcrc : crc16 .default (coveredPart body) ≠ receivedCrc body
  · rw [if_pos hcrc, if_pos hcrc]; rfl
  rw [if_neg hcrc, if_neg hcrc]
  exact congrArg (0x01 :: ·) (frameBody_parsedFrame rfl (not_lt.mp hmin) (not_not.mp hlen))

/-! ### What DEC_BYTE answers, and when it is a frame -/

theorem exec_decByte (b : Byte) (s : State) : exec (.decByte b) s = consume .default b s := rfl

/-- R110's append answers NONE or OVERFLOW. -/
theorem appendByte_answer {v : Byte} {s t : State} (h : appendByte p v s = .next t) :
    ∃ e : Event, (e = .none ∨ e = .bad .overflow) ∧ t.output = s.output ++ [eventBytes e] := by
  by_cases ho : s.AccOk p
  · rw [appendByte_eq v ho] at h
    cases h
    unfold afterAppend
    split
    · exact ⟨.none, .inl rfl, rfl⟩
    · exact ⟨.bad .overflow, .inr rfl, rfl⟩
  · rw [appendByte_refused v ho] at h; cases h

/-- A received byte is answered by NONE, by OVERFLOW, or, for an end marker that closes a frame, by the outcome of the
parse (R102 to R110). -/
theorem consume_answer (hv : p.Valid) {b : Byte} {s t : State} (h : consume p b s = .next t) :
    ∃ e : Event, t.output = s.output ++ [eventBytes e] ∧
      ((e = .none ∨ e = .bad .overflow) ∨
        (b = p.eof ∧ s.decInFrame = true ∧ s.decEscaping = false ∧ s.AccOk p ∧
          e = parsedEvent (parseBody p s.decBuf))) := by
  cases hf : s.decInFrame with
  | false =>
    rw [consume_out hf] at h
    split at h <;> cases h <;> exact ⟨.none, rfl, .inl (.inl rfl)⟩
  | true =>
  cases he : s.decEscaping with
  | true =>
    rw [consume_escaping hf he] at h
    obtain ⟨e, hnone, hout⟩ := appendByte_answer h
    exact ⟨e, hout, .inl hnone⟩
  | false =>
  cases hb : isMarker p b with
  | false =>
    rw [consume_data hf he hb] at h
    obtain ⟨e, hnone, hout⟩ := appendByte_answer h
    exact ⟨e, hout, .inl hnone⟩
  | true =>
  rcases (isMarker_iff p b).mp hb with rfl | rfl | rfl
  · rw [consume_sof hv hf he] at h
    cases h
    exact ⟨.none, rfl, .inl (.inl rfl)⟩
  · rw [consume_eof hv hf he] at h
    by_cases ho : s.AccOk p
    · rw [inEof_eq ho] at h
      cases h
      exact ⟨_, rfl, .inr ⟨rfl, rfl, rfl, ho, rfl⟩⟩
    · rw [inEof_refused ho] at h; cases h
  · rw [consume_esc hf he] at h
    cases h
    exact ⟨.none, rfl, .inl (.inl rfl)⟩

/-- The kind byte FRAME begins the response of a FRAME event only (R63). -/
theorem eventBytes_eq_frame {e : Event} {r : List Byte} (h : eventBytes e = 0x01 :: r) :
    ∃ f, e = .frame f ∧ frameBody f = r := by
  cases e with
  | none => exact absurd (List.cons.inj h).1 (by decide)
  | bad reason => exact absurd (List.cons.inj h).1 (by decide)
  | frame f => exact ⟨f, rfl, (List.cons.inj h).2⟩

/-- Only a parse that passed is reported as a frame. -/
theorem parsedEvent_eq_frame {x : Except BadReason Frame} {f : Frame} (h : parsedEvent x = .frame f) : x = .ok f := by
  cases x <;> cases h
  rfl

/-- A response with the kind byte FRAME comes from an end marker that closes a frame whose body parses, and carries
that body's fields (R108, R125). -/
theorem consume_frame (hv : p.Valid) {b : Byte} {s t : State} {r : List Byte} (h : consume p b s = .next t)
    (hr : t.output = s.output ++ [0x01 :: r]) :
    b = p.eof ∧ s.decInFrame = true ∧ s.decEscaping = false ∧ s.AccOk p ∧
      ∃ f, parseBody p s.decBuf = .ok f ∧ frameBody f = r := by
  obtain ⟨e, hout, hcase⟩ := consume_answer hv h
  have hbytes : eventBytes e = 0x01 :: r := by simpa using hout.symm.trans hr
  obtain ⟨f, rfl, hbody⟩ := eventBytes_eq_frame hbytes
  obtain hnone | ⟨hb, hf, he, ho, hparse⟩ := hcase
  · simp at hnone
  · exact ⟨hb, hf, he, ho, f, parsedEvent_eq_frame hparse.symm, hbody⟩

/-- The DecodedFrame invariant at the defaults (R125, R126): a parsed frame has the version, its payload is at most 249
bytes, and its fields, written out, are the body with the CRC of the rest in its last two bytes. -/
theorem parseBody_default_ok {body : List Byte} {f : Frame} (hacc : body.length ≤ 256)
    (h : parseBody .default body = .ok f) :
    f.version = 0x02 ∧ f.payload.length ≤ 249 ∧ frameBody f = body ∧
      f.crc16 = crc16 .default ([f.version, f.type, f.flags, f.seq, byteOf f.payload.length] ++ f.payload) := by
  have hwf := parseBody_wellFormed Config.default_fits hacc h
  simp only [Frame.wellFormed, Bool.and_eq_true, decide_eq_true_eq] at hwf
  obtain ⟨hmin, hver, hlen, hcrc, rfl⟩ := parseBody_ok h
  have hbody : frameBody (parsedFrame .default body) = body := frameBody_parsedFrame rfl hmin hlen
  refine ⟨hver, hwf.1.2, hbody, ?_⟩
  rw [← coveredPart_frameBody, hbody]
  exact hcrc.symm

/-! ### The statements -/

/-- Settles O28: such a response is an end marker's, so it is the body of a parsed frame, which meets R125's
invariant. -/
theorem deliveredFramesAreValid : Obligations.DeliveredFramesAreValid := by
  intro b s t r h hr
  obtain ⟨hb, hf, he, ho, f, hparse, rfl⟩ := consume_frame Config.default_valid h hr
  obtain ⟨hver, hpayload, hbody, hcrc⟩ := parseBody_default_ok ho hparse
  have hlen : (byteOf f.payload.length).toNat = f.payload.length := toNat_byteOf (by omega)
  refine ⟨hb, hf, he, hbody, f.type, f.flags, f.seq, byteOf f.payload.length, hiByte f.crc16, loByte f.crc16,
    f.payload, ?_, hlen.symm, hlen.symm ▸ hpayload, ?_⟩
  · rw [← hver]; rfl
  · rw [← join16_eq, join16_hi_lo, ← hver]
    exact hcrc

/-- Settles O21: the code has no operands, and DEC_RESET replaces the decoder's contents. -/
theorem decResetClears : Obligations.DecResetClears :=
  ⟨decodeOp_codeOf .default .normal .decReset, exec_decReset⟩

/-- Settles O22: out of frame the only test made is for the start marker. -/
theorem outOfFrameOnlySofActs : Obligations.OutOfFrameOnlySofActs := by
  intro b s hf
  rw [exec_decByte, consume_out hf]
  by_cases hb : b = 0x7E
  · rw [if_pos hb, if_pos hb]; rfl
  · rw [if_neg hb, if_neg hb]; rfl

/-- Settles O23: escaping, a byte goes to the append without its value being examined. -/
theorem escapedByteIsData : Obligations.EscapedByteIsData := by
  intro b s hf he ho
  rw [exec_decByte, consume_escaping hf he]
  exact appendByte_eq (b ^^^ 0x20) (s := { s with decEscaping := false }) ho

/-- Settles O24: the escape marker's case does not look at the buffer. -/
theorem escapeMarkerSetsEscaping : Obligations.EscapeMarkerSetsEscaping :=
  fun _ hf he => consume_esc hf he

/-- Settles O25: the start marker is tested after the escape marker, from which it differs. -/
theorem startMarkerResynchronises : Obligations.StartMarkerResynchronises :=
  fun _ hf he => consume_sof Config.default_valid hf he

/-- Settles O26: a byte that is no marker goes to the append as it is. -/
theorem dataByteIsAppended : Obligations.DataByteIsAppended := by
  intro b s hf he ho hesc hsof heof
  have hb : isMarker .default b = false := (isMarker_default_false_iff b).mpr ⟨hsof, heof, hesc⟩
  rw [exec_decByte, consume_data hf he hb]
  exact appendByte_eq b ho

/-- Settles O27: the answer is the parse's outcome, given on leaving the frame. -/
theorem endMarkerParsesTheBody : Obligations.EndMarkerParsesTheBody := by
  intro s hf he ho
  have heof : exec (.decByte 0x7F) s = inEof .default s := consume_eof Config.default_valid hf he
  rw [heof, inEof_eq ho, eventBytes_parsedEvent_default]
  rfl

end Sys2Proof.Machine

/-! The two ring buffers (43_ring_buffer R131 to R138) at the default parameters: the requests decode to the seven
operations, each is one response and a write of its own ring, and the ring's registers are read back from the next
state. -/

namespace Sys2Proof.Machine

/-! ### The request of RB_ADD (R62) -/

/-- A content operand of full length is read whole, whatever follows it. -/
theorem slotOp_of_length {p : Config} (op : Byte) {content : List Byte} (rest : List Byte)
    (h : content.length = p.contentBytes) :
    slotOp p op (content ++ rest) = .ok (.rbAdd (classOf op) content) rest := by
  have hfits : p.contentBytes ≤ (content ++ rest).length := by simp [h]
  rw [slotOp, if_pos hfits, List.take_left' h, List.drop_left' h]

/-! ### The registers of a ring after an operation -/

@[simp] theorem addResponses_slots (s : State) (rs : List (List Byte)) (k : MsgClass) :
    (s.addResponses rs).slots k = s.slots k := by cases k <;> rfl
@[simp] theorem addResponses_wCursor (s : State) (rs : List (List Byte)) (k : MsgClass) :
    (s.addResponses rs).wCursor k = s.wCursor k := by cases k <;> rfl
@[simp] theorem addResponses_dCursor (s : State) (rs : List (List Byte)) (k : MsgClass) :
    (s.addResponses rs).dCursor k = s.dCursor k := by cases k <;> rfl

theorem wCursor_setW_default (s : State) {k : MsgClass} {n : Nat} (h : n < capacity .default k) :
    (s.setW k n).wCursor k = n :=
  (State.wCursor_setW s Config.default_fits k k h).trans (if_pos rfl)

theorem dCursor_setD_default (s : State) {k : MsgClass} {n : Nat} (h : n < capacity .default k) :
    (s.setD k n).dCursor k = n :=
  (State.dCursor_setD s Config.default_fits k k h).trans (if_pos rfl)

/-- R131 and R135 together, in a ring of two slots or more: a cursor out of range counts as 0, so it goes to 1. -/
theorem nextCursor_clamp {p : Config} {k : MsgClass} (hk : 1 < capacity p k) (c : Nat) :
    nextCursor p k (clamp p k c) =
      if c + 1 < capacity p k then c + 1 else if c + 1 = capacity p k then 0 else 1 := by
  by_cases hc : c < capacity p k
  · rw [clamp_of_lt hc, nextCursor_of_lt hc]
    split_ifs <;> omega
  · rw [clamp, if_neg hc, nextCursor_of_lt (by omega), if_neg (by omega), if_neg (by omega), if_neg (by omega)]

/-- The slot flags at the defaults, as R136 counts them. -/
theorem slotEnabled_default (s : State) (k : MsgClass) (j : Nat) :
    s.slotEnabled .default k j = ((s.slots k).read (19 * j) != 0x00) :=
  Bool.eq_iff_iff.mpr ((slotEnabled_iff .default s k j).trans bne_iff_ne.symm)

/-! ### The operations as one response each, and what the ring then holds -/

theorem exec_rbAdd (k : MsgClass) (content : List Byte) (s : State) :
    exec (.rbAdd k content) s =
      .next (((s.setSlots k ((s.slots k).writeBytes (slotAddr .default (clamp .default k (s.wCursor k)) 0)
        (slotImage .default content))).setW k (nextCursor .default k (clamp .default k (s.wCursor k)))).addResponses
          [[]]) := rfl

theorem exec_rbAdv (k : MsgClass) (s : State) :
    exec (.rbAdv k) s =
      .next ((s.setD k (nextCursor .default k (clamp .default k (s.dCursor k)))).addResponses [[]]) := rfl

theorem exec_rbRstd (k : MsgClass) (s : State) :
    exec (.rbRstd k) s = .next ((s.setD k 0).addResponses [[]]) := rfl

theorem exec_rbCount (k : MsgClass) (s : State) :
    exec (.rbCount k) s = .next (s.addResponses [[byteOf (enabledCount .default k s)]]) := rfl

theorem exec_rbRead (k : MsgClass) (s : State) :
    exec (.rbRead k) s = .next (s.addResponses [s.slotBytes .default k (clamp .default k (s.dCursor k))]) := rfl

theorem exec_rbFind_of_some {k : MsgClass} {s : State} {j : Nat}
    (h : findSlot .default k (clamp .default k (s.dCursor k)) s = some j) :
    exec (.rbFind k) s = .next ((s.setD k j).addResponses [[0x01, byteOf j]]) := by
  simp only [exec, execRbFind, execRbFindAt, h]
  rfl

theorem exec_rbFind_of_none {k : MsgClass} {s : State}
    (h : findSlot .default k (clamp .default k (s.dCursor k)) s = none) :
    exec (.rbFind k) s = .next ((s.setD k (clamp .default k (s.dCursor k))).addResponses
      [[0x00, byteOf (clamp .default k (s.dCursor k))]]) := by
  simp only [exec, execRbFind, execRbFindAt, h]
  rfl

/-- What the operations that write the display cursor alone leave in the ring (R134, R135, R137). -/
theorem setD_addResponses_ring (s : State) {k : MsgClass} {n : Nat} (h : n < capacity .default k)
    (rs : List (List Byte)) :
    ((s.setD k n).addResponses rs).slots k = s.slots k ∧ ((s.setD k n).addResponses rs).wCursor k = s.wCursor k ∧
      ((s.setD k n).addResponses rs).dCursor k = n ∧ ((s.setD k n).addResponses rs).output = s.output ++ rs := by
  simp [dCursor_setD_default s h]

/-! ### The statements -/

/-- Settles O40: the scan finds the first enabled slot if there is one, and it finds none exactly when no slot is
enabled. -/
theorem rbFindMovesToFirstEnabled : Obligations.RbFindMovesToFirstEnabled := by
  refine ⟨fun rest => ⟨decodeOp_codeOf .default .normal .rbFind rest,
    decodeOp_codeOf .default .emergency .rbFind rest⟩, fun k s => ?_⟩
  cases hfind : findSlot .default k (clamp .default k (s.dCursor k)) s with
  | some j =>
    obtain ⟨hj, hen⟩ := findSlot_some Config.default_fits hfind
    have hexec := exec_rbFind_of_some hfind
    obtain ⟨hslots, hw, hcur, hout⟩ := setD_addResponses_ring s hj [[0x01, byteOf j]]
    refine ⟨_, _, rfl, hexec, onlyUnit_of_exec hexec, hslots, hw, fun i hi hne hbefore => ?_, fun hnone => ?_⟩
    · have hfirst := findSlot_first hi ((slotEnabled_iff .default s k _).mpr hne)
        fun i' hi' => (slotEnabled_false_iff .default s k _).mpr (hbefore i' hi')
      obtain rfl := Option.some.inj (hfind.symm.trans hfirst)
      exact ⟨hcur, hout⟩
    · exact absurd (hnone j hj) ((slotEnabled_iff .default s k j).mp hen)
  | none =>
    have hd := clamp_lt Config.default_fits k (s.dCursor k)
    have hoff : ∀ j, j < capacity .default k → (s.slots k).read (19 * j) = 0x00 := fun j hj =>
      (slotEnabled_false_iff .default s k j).mp ((findSlot_none_iff hd).mp hfind j hj)
    have hexec := exec_rbFind_of_none hfind
    obtain ⟨hslots, hw, hcur, hout⟩ := setD_addResponses_ring s hd [[0x00, byteOf (clamp .default k (s.dCursor k))]]
    refine ⟨_, _, rfl, hexec, onlyUnit_of_exec hexec, hslots, hw, fun i hi hne _ => ?_, fun _ => ⟨hcur, hout⟩⟩
    exact absurd (hoff _ (Nat.mod_lt _ (Nat.zero_lt_of_lt hi))) hne

/-- Settles O38: the ring's contents are replaced by zeroed slots and zero cursors. -/
theorem rbInitZeroes : Obligations.RbInitZeroes := by
  refine ⟨fun rest => ⟨decodeOp_codeOf .default .normal .rbInit rest,
    decodeOp_codeOf .default .emergency .rbInit rest⟩, fun k s => ?_⟩
  have h0 := capacity_pos Config.default_fits k
  refine ⟨_, exec_rbInit k s, onlyUnit_of_exec (exec_rbInit k s), fun a _ => ?_, ?_, ?_, ?_⟩
  · simp [UnitUpdate.apply, read_zeroed]
  · simp [UnitUpdate.apply, wCursor_setW_default _ h0]
  · simp [UnitUpdate.apply, dCursor_setD_default _ h0]
  · simp

/-- Settles O39: the bytes written are the slot image of the content, at the clamped write cursor. -/
theorem rbAddWritesTheWholeSlot : Obligations.RbAddWritesTheWholeSlot := by
  refine ⟨fun content rest hlen => ⟨?_, ?_⟩, fun k content s hlen => ?_⟩
  · exact (decodeOp_codeOf .default .normal .rbAdd _).trans (slotOp_of_length 0x31 rest hlen)
  · exact (decodeOp_codeOf .default .emergency .rbAdd _).trans (slotOp_of_length 0x39 rest hlen)
  · have hnext := nextCursor_lt Config.default_fits k (clamp .default k (s.wCursor k))
    refine ⟨_, _, rfl, exec_rbAdd k content s, onlyUnit_of_exec (exec_rbAdd k content s), fun a => ?_, ?_, ?_, ?_⟩
    · rw [addResponses_slots, State.slots_setW, State.slots_setSlots_self, read_slot_write Config.default_fits,
        slotImage_of_length hlen]
      rfl
    · exact (addResponses_wCursor _ _ k).trans (wCursor_setW_default _ hnext)
    · simp
    · simp

/-- Settles O42: the display cursor goes to the successor of its clamped value. -/
theorem rbAdvMovesByOne : Obligations.RbAdvMovesByOne := by
  refine ⟨fun rest => ⟨decodeOp_codeOf .default .normal .rbAdv rest,
    decodeOp_codeOf .default .emergency .rbAdv rest⟩, fun k s => ?_⟩
  have hk : 1 < capacity .default k := by cases k <;> decide
  obtain ⟨hslots, hw, hd, hout⟩ := setD_addResponses_ring s
    (nextCursor_lt Config.default_fits k (clamp .default k (s.dCursor k))) [[]]
  exact ⟨_, exec_rbAdv k s, onlyUnit_of_exec (exec_rbAdv k s), hslots, hw, hd.trans (nextCursor_clamp hk _), hout⟩

/-- Settles O44: the model's count is of the slots whose flag is set, of which there are at most N. -/
theorem rbCountCountsEnabled : Obligations.RbCountCountsEnabled := by
  refine ⟨fun rest => ⟨decodeOp_codeOf .default .normal .rbCount rest,
    decodeOp_codeOf .default .emergency .rbCount rest⟩, fun k s => ?_⟩
  refine ⟨enabledCount .default k s, ?_, enabledCount_le .default k s, exec_rbCount k s⟩
  rw [enabledCount, ← List.countP_eq_length_filter, funext (slotEnabled_default s k)]

/-- Settles O45: the display cursor alone is written. -/
theorem rbRstdRewinds : Obligations.RbRstdRewinds := by
  refine ⟨fun rest => ⟨decodeOp_codeOf .default .normal .rbRstd rest,
    decodeOp_codeOf .default .emergency .rbRstd rest⟩, fun k s => ?_⟩
  exact ⟨_, exec_rbRstd k s, onlyUnit_of_exec (exec_rbRstd k s),
    setD_addResponses_ring s (capacity_pos Config.default_fits k) [[]]⟩

/-- Settles O46: the one response is the slot under the clamped cursor, read whole. -/
theorem rbReadAnswersTheSlot : Obligations.RbReadAnswersTheSlot := by
  refine ⟨fun rest => ⟨decodeOp_codeOf .default .normal .rbRead rest,
    decodeOp_codeOf .default .emergency .rbRead rest⟩, fun k s => ?_⟩
  exact ⟨_, _, rfl, exec_rbRead k s, slotBytes_length s k _, fun i hi => slotBytes_getElem? s k _ i hi⟩

end Sys2Proof.Machine

/-! Whole frames through the decoder (41_frame_encoder R95, 42_stream_decoder R110, R127): a written-out frame parses
back to itself, so an encoded frame is delivered whole from every state that is not escaping, and after it the decoder
is out of frame. -/

namespace Sys2Proof.Machine

variable {p : Config}

/-! ### The parse of a written-out frame -/

theorem frameBody_length (f : Frame) : (frameBody f).length = f.payload.length + 7 := by
  simp [frameBody, beBytes]

/-- The CRC stands after the header and the payload (R51). -/
theorem bodyByte_frameBody_crc (f : Frame) (i : Nat) :
    bodyByte (frameBody f) (f.payload.length + 5 + i) = (beBytes f.crc16).getD i 0x00 := by
  have hbody : frameBody f =
      ([f.version, f.type, f.flags, f.seq, byteOf f.payload.length] ++ f.payload) ++ beBytes f.crc16 := rfl
  rw [hbody, bodyByte, List.getD_append_right _ _ _ _ (by simp)]
  congr 1
  simp

theorem receivedCrc_frameBody (f : Frame) : receivedCrc (frameBody f) = f.crc16 := by
  rw [receivedCrc, frameBody_length]
  exact (congrArg₂ join16 (bodyByte_frameBody_crc f 0) (bodyByte_frameBody_crc f 1)).trans (join16_hi_lo f.crc16)

/-- The converse of `parseBody_ok`: a frame with the version and its own CRC, written out, parses to itself. -/
theorem parseBody_frameBody (hf : p.Fits) {f : Frame} (hver : f.version = p.ver) (hlen : f.payload.length ≤ 255)
    (hcrc : f.crc16 = crc16 p ([f.version, f.type, f.flags, f.seq, byteOf f.payload.length] ++ f.payload)) :
    parseBody p (frameBody f) = .ok f := by
  have hverByte : bodyByte (frameBody f) 0 = p.ver := hver
  have hlenByte : (bodyByte (frameBody f) 4).toNat = f.payload.length := toNat_byteOf (Nat.lt_succ_of_le hlen)
  rw [parseBody, hf.minBody_eq, hf.hdr_eq, frameBody_length, if_neg (by omega), if_neg (not_not.mpr hverByte),
    if_neg (by omega), receivedCrc_frameBody, coveredPart_frameBody, if_neg (not_not.mpr hcrc.symm)]
  rfl

/-- The frame ENC_FRAME writes out (R93). -/
def encodedFrame (p : Config) (type flags seq : Byte) (payload : List Byte) : Frame where
  version := p.ver
  type := type
  flags := flags
  seq := seq
  payload := truncatePayload p payload
  crc16 := crc16 p (coveredBytes p type flags seq payload)

theorem frameBody_encodedFrame (type flags seq : Byte) (payload : List Byte) :
    frameBody (encodedFrame p type flags seq payload) = encodeBody p type flags seq payload := rfl

theorem truncatePayload_length_le (p : Config) (payload : List Byte) :
    (truncatePayload p payload).length ≤ p.maxPayload := List.length_take_le _ _

theorem truncatePayload_of_length_le {payload : List Byte} (h : payload.length ≤ p.maxPayload) :
    truncatePayload p payload = payload := List.take_of_length_le h

theorem encodeBody_length (p : Config) (type flags seq : Byte) (payload : List Byte) :
    (encodeBody p type flags seq payload).length = (truncatePayload p payload).length + 7 := by
  rw [← frameBody_encodedFrame, frameBody_length, encodedFrame]

/-- What the encoder writes passes the four checks of R121 to R124. -/
theorem parseBody_encodeBody (hf : p.Fits) (type flags seq : Byte) (payload : List Byte) :
    parseBody p (encodeBody p type flags seq payload) = .ok (encodedFrame p type flags seq payload) := by
  rw [← frameBody_encodedFrame]
  exact parseBody_frameBody hf rfl ((truncatePayload_length_le p payload).trans hf.payload_le) rfl

/-! ### An encoded frame received -/

@[simp] theorem andThen_next (s : State) (f : State → Result) : andThen (.next s) f = f s := rfl

@[simp] theorem andThen_id (r : Result) : andThen r .next = r := by cases r <;> rfl

theorem execAllAt_feed_singleton (b : Byte) (s : State) : execAllAt p (feed [b]) s = consume p b s :=
  andThen_id _

/-- R103 as the next state. -/
theorem consume_out_other {b : Byte} {s : State} (hin : s.decInFrame = false) (hb : b ≠ p.sof) :
    consume p b s = .next (s.addResponses [[0x00]]) := by
  rw [consume_out hin, if_neg hb]; rfl

/-- R104 as the next state. -/
theorem consume_sof_out {s : State} (hin : s.decInFrame = false) :
    consume p p.sof s = .next ((enterFrame s).addResponses [[0x00]]) := by
  rw [consume_out hin, if_pos rfl]; rfl

/-- R104 and R107 together: unless it is escaped, a start marker begins an empty frame. -/
theorem consume_sof_enters (hv : p.Valid) {s : State} (he : s.decEscaping = false) :
    consume p p.sof s = .next ((enterFrame s).addResponses [[0x00]]) := by
  cases hf : s.decInFrame with
  | false => exact consume_sof_out hf
  | true => rw [consume_sof hv hf he, inSof, enterFrame, ← hf, ← he]; rfl

/-- The end marker after an encoded body delivers the frame (R108, R125). -/
theorem consume_eof_encodeBody (hv : p.Valid) (hf : p.Fits) {type flags seq : Byte} {payload : List Byte} {s : State}
    (hin : s.decInFrame = true) (he : s.decEscaping = false)
    (hbuf : s.decBuf = encodeBody p type flags seq payload) :
    consume p p.eof s = .next ((leaveFrame s).addResponses [0x01 :: encodeBody p type flags seq payload]) := by
  have ho : s.AccOk p := by
    have := truncatePayload_length_le p payload
    have := hf.body_le
    rw [State.AccOk, hbuf, encodeBody_length]
    omega
  rw [consume_eof hv hin he, inEof_eq ho, hbuf, parseBody_encodeBody hf]
  rfl

theorem encodeFrame_length (p : Config) (type flags seq : Byte) (payload : List Byte) :
    (encodeFrame p type flags seq payload).length =
      ((encodeBody p type flags seq payload).flatMap (stuff p)).length + 2 := by
  simp only [encodeFrame, List.length_append, List.length_singleton]; omega

/-- R95: an encoded frame is delivered on its last byte, with no event before, whatever stood in the decoder. -/
theorem feed_encodeFrame (hv : p.Valid) (hf : p.Fits) (type flags seq : Byte) (payload : List Byte) {s : State}
    (he : s.decEscaping = false) :
    execAllAt p (feed (encodeFrame p type flags seq payload)) s = .next ((leaveFrame s).addResponses
      (List.replicate ((encodeFrame p type flags seq payload).length - 1) [0x00] ++
        [0x01 :: encodeBody p type flags seq payload])) := by
  have hfits : ((enterFrame s).addResponses [[0x00]]).decBuf.length +
      (encodeBody p type flags seq payload).length ≤ p.maxAcc := by
    have := truncatePayload_length_le p payload
    have := hf.body_le
    change 0 + _ ≤ _
    rw [encodeBody_length]
    omega
  have hlen : (encodeFrame p type flags seq payload).length - 1 =
      1 + ((encodeBody p type flags seq payload).flatMap (stuff p)).length := by
    rw [encodeFrame_length]; omega
  rw [hlen, encodeFrame, execAllAt_feed_append, execAllAt_feed_append, execAllAt_feed_singleton,
    consume_sof_enters hv he, andThen_next, feed_stuffed _ _ rfl rfl hfits, andThen_next, execAllAt_feed_singleton,
    consume_eof_encodeBody hv hf rfl rfl rfl]
  simp [leaveFrame, State.addResponses, List.replicate_add]

/-- Out of frame and empty, a decoder is where leaving a frame leaves it. -/
theorem leaveFrame_of_out {s : State} (hin : s.decInFrame = false) (he : s.decEscaping = false)
    (hbuf : s.decBuf = []) : leaveFrame s = s := by
  cases s; cases hin; cases he; cases hbuf; rfl

/-- R93 for a payload that is not cut: the covered bytes and their CRC as bit fields. -/
theorem encodeBody_of_length_le {type flags seq : Byte} {payload : List Byte} (h : payload.length ≤ p.maxPayload) :
    encodeBody p type flags seq payload =
      [p.ver, type, flags, seq, BitVec.ofNat 8 payload.length] ++ payload ++
        [(crc16 p ([p.ver, type, flags, seq, BitVec.ofNat 8 payload.length] ++ payload)).extractLsb' 8 8,
          (crc16 p ([p.ver, type, flags, seq, BitVec.ofNat 8 payload.length] ++ payload)).extractLsb' 0 8] := by
  rw [encodeBody, coveredBytes, truncatePayload_of_length_le h, beBytes_eq_extract, byteOf]

/-- Whatever the decoder held before, it is the same out of frame. -/
theorem leaveFrame_apply_decoder (g e : Bool) (buf : List Byte) (s : State) :
    leaveFrame ((UnitUpdate.decoder g e buf).apply s) = leaveFrame s := rfl

theorem leaveFrame_enterFrame (s : State) : leaveFrame (enterFrame s) = leaveFrame s := rfl

theorem leaveFrame_addResponses (s : State) (rs : List (List Byte)) :
    leaveFrame (s.addResponses rs) = (leaveFrame s).addResponses rs := rfl

/-- R95 as the obligation words it, at any parameters. -/
theorem feed_encodeFrame_of_out (hv : p.Valid) (hf : p.Fits) {type flags seq : Byte} {payload : List Byte} {s : State}
    (hlen : payload.length ≤ p.maxPayload) (hin : s.decInFrame = false) (he : s.decEscaping = false)
    (hbuf : s.decBuf = []) :
    ∃ covered : List Byte,
      covered = [p.ver, type, flags, seq, BitVec.ofNat 8 payload.length] ++ payload ∧
      execAllAt p (feed (encodeFrame p type flags seq payload)) s = .next
        { s with output := s.output ++
          List.replicate ((encodeFrame p type flags seq payload).length - 1) [0x00] ++
          [0x01 :: covered ++ [(crc16 p covered).extractLsb' 8 8, (crc16 p covered).extractLsb' 0 8]] } := by
  refine ⟨_, rfl, ?_⟩
  rw [feed_encodeFrame hv hf type flags seq payload he, leaveFrame_of_out hin he hbuf, encodeBody_of_length_le hlen,
    State.addResponses, ← List.append_assoc s.output]
  rfl

/-- Settles O33: the stuffed body is stored byte for byte, and the body the encoder built parses to its frame. -/
theorem decodeOfEncodeIsTheFrame : Obligations.DecodeOfEncodeIsTheFrame := by
  refine ⟨fun type flags seq payload s hlen hin he hbuf => ?_, fun p type flags seq payload s hv hf =>
    feed_encodeFrame_of_out hv hf⟩
  rw [← execAllAt_default]
  exact feed_encodeFrame_of_out Config.default_valid Config.default_fits hlen hin he hbuf

/-! ### Garbage (R127) -/

/-- R110 with room in the buffer, in frame and after the escaping flag is cleared: the byte is stored, with NONE. -/
theorem appendByte_stores (v : Byte) {s : State} (hin : s.decInFrame = true) (hroom : s.decBuf.length < p.maxAcc) :
    appendByte p v { s with decEscaping := false } =
      .next (((UnitUpdate.decoder true false (s.decBuf ++ [v])).apply s).addResponses [[0x00]]) := by
  rw [appendByte, if_pos (by exact hroom), ← hin]
  rfl

/-- One byte of quiet garbage: no event, still in frame, at most one byte stored, and what follows is quiet. -/
theorem consume_quietGarbage {b : Byte} {g : List Byte} {s : State} (hin : s.decInFrame = true)
    (hquiet : quietGarbage p s.decEscaping (b :: g) = true) (hroom : s.decBuf.length < p.maxAcc) :
    ∃ e buf, consume p b s = .next (((UnitUpdate.decoder true e buf).apply s).addResponses [[0x00]]) ∧
      quietGarbage p e g = true ∧ buf.length ≤ s.decBuf.length + 1 := by
  cases he : s.decEscaping with
  | true =>
    rw [he] at hquiet
    refine ⟨false, s.decBuf ++ [b ^^^ p.mask], ?_, hquiet, by simp⟩
    rw [consume_escaping hin he, inEscaping, appendByte_stores _ hin hroom]
  | false =>
    rw [he, quietGarbage] at hquiet
    by_cases hb : b = p.esc
    · rw [if_pos hb] at hquiet
      refine ⟨true, s.decBuf, ?_, hquiet, Nat.le_succ _⟩
      rw [hb, consume_esc hin he, inEsc, ← hin]
      rfl
    · rw [if_neg hb, Bool.and_eq_true, Bool.and_eq_true, bne_iff_ne, bne_iff_ne] at hquiet
      obtain ⟨⟨hsof, heof⟩, hg⟩ := hquiet
      refine ⟨false, s.decBuf ++ [b], ?_, hg, by simp⟩
      rw [consume_data hin he ((isMarker_false_iff p b).mpr ⟨hsof, heof, hb⟩), inData,
        ← appendByte_stores b hin hroom, ← he]

/-- Quiet garbage, at most as long as the room left in the buffer, gives no event and leaves no escape open. -/
theorem feed_quietGarbage {g : List Byte} {s : State} (hin : s.decInFrame = true)
    (hquiet : quietGarbage p s.decEscaping g = true) (hroom : s.decBuf.length + g.length ≤ p.maxAcc) :
    ∃ buf, execAllAt p (feed g) s = .next
      (((UnitUpdate.decoder true false buf).apply s).addResponses (List.replicate g.length [0x00])) := by
  induction g generalizing s with
  | nil =>
    have he : s.decEscaping = false := by simpa [quietGarbage] using hquiet
    refine ⟨s.decBuf, ?_⟩
    rw [← hin, ← he]
    simp [UnitUpdate.apply, State.addResponses, feed, execAllAt]
  | cons b g ih =>
    rw [List.length_cons] at hroom
    obtain ⟨e, buf, hb, hg, hlen⟩ := consume_quietGarbage hin hquiet (by omega)
    obtain ⟨buf', hrest⟩ := ih (s := ((UnitUpdate.decoder true e buf).apply s).addResponses [[0x00]]) rfl hg
      (by change buf.length + _ ≤ _; omega)
    refine ⟨buf', ?_⟩
    rw [execAllAt_feed_cons, hb, andThen_next, hrest, apply_addResponses, addResponses_addResponses]
    rfl

/-- Settles O34: the start marker opens a frame, the garbage gives no event and leaves no escape open, and from there
the encoded frame is delivered. -/
theorem resynchronisationRecovers : Obligations.ResynchronisationRecovers := by
  intro garbage type flags seq payload s hlen hglen hquiet hin he hbuf
  refine ⟨_, rfl, ?_⟩
  have hstart := consume_sof_enters Config.default_valid he
  obtain ⟨buf, hgarbage⟩ := feed_quietGarbage (p := .default) (s := (enterFrame s).addResponses [[0x00]]) rfl hquiet
    (by change 0 + _ ≤ 256; omega)
  rw [← execAllAt_default, execAllAt_feed_append, execAllAt_feed_append, execAllAt_feed_singleton, hstart,
    andThen_next, hgarbage, andThen_next, feed_encodeFrame Config.default_valid Config.default_fits _ _ _ _ rfl]
  have hframe := encodeFrame_length .default type flags seq payload
  have hcount : garbage.length + (encodeFrame .default type flags seq payload).length =
      1 + garbage.length + ((encodeFrame .default type flags seq payload).length - 1) := by omega
  rw [hcount, leaveFrame_addResponses, leaveFrame_apply_decoder, leaveFrame_addResponses, leaveFrame_enterFrame,
    leaveFrame_of_out hin he hbuf]
  simp only [State.addResponses, List.replicate_add, List.append_assoc]
  rfl

/-! ### A buffer that overflows (R110) -/

theorem flatMap_stuff_of_no_marker {xs : List Byte} (h : ∀ x ∈ xs, isMarker p x = false) :
    xs.flatMap (stuff p) = xs := by
  induction xs with
  | nil => rfl
  | cons x xs ih =>
    rw [List.flatMap_cons, stuff_of_not_marker (h x (List.mem_cons_self ..)),
      ih fun y hy => h y (List.mem_cons_of_mem x hy)]
    rfl

/-- R110 with the buffer full: the frame is aborted with OVERFLOW. -/
theorem appendByte_overflows (v : Byte) {s : State} (h : s.decBuf.length = p.maxAcc) :
    appendByte p v s = .next ((leaveFrame s).addResponses [[0x02, 0x05]]) := by
  rw [appendByte, if_neg (by omega), if_pos h]
  rfl

/-- R103: out of frame, bytes that are no start marker give no event and change nothing. -/
theorem feed_out {ys : List Byte} {s : State} (hin : s.decInFrame = false) (hys : p.sof ∉ ys) :
    execAllAt p (feed ys) s = .next (s.addResponses (List.replicate ys.length [0x00])) := by
  induction ys generalizing s with
  | nil => simp [feed, execAllAt, State.addResponses]
  | cons y ys ih =>
    rw [List.mem_cons, not_or] at hys
    obtain ⟨hy, hys⟩ := hys
    rw [execAllAt_feed_cons, consume_out_other hin (Ne.symm hy), andThen_next, ih (by exact hin) hys,
      addResponses_addResponses]
    rfl

/-- R110's trip point at any `P_MAX_ACC`. -/
theorem feed_overflow {xs ys : List Byte} {b : Byte} {s : State} (hin : s.decInFrame = false)
    (he : s.decEscaping = false) (hbuf : s.decBuf = []) (hlen : xs.length = p.maxAcc)
    (hxs : ∀ x ∈ xs, isMarker p x = false) (hb : isMarker p b = false) (hys : p.sof ∉ ys) :
    execAllAt p (feed ([p.sof] ++ xs ++ [b] ++ ys)) s = .next
      { s with output := s.output ++ List.replicate (p.maxAcc + 1) [0x00] ++ [[0x02, 0x05]] ++
          List.replicate ys.length [0x00] } := by
  have hfill := feed_stuffed (p := p) xs ((enterFrame s).addResponses [[0x00]]) rfl rfl
    (by change 0 + _ ≤ _; omega)
  rw [flatMap_stuff_of_no_marker hxs] at hfill
  rw [execAllAt_feed_append, execAllAt_feed_append, execAllAt_feed_append, execAllAt_feed_singleton,
    consume_sof_out hin, andThen_next, hfill, andThen_next, execAllAt_feed_singleton, consume_data rfl rfl hb, inData,
    appendByte_overflows b (by exact hlen), andThen_next, feed_out rfl hys]
  have hout := leaveFrame_of_out hin he hbuf
  change Host.Outcome.next (((((leaveFrame s).addResponses [[0x00]]).addResponses
    (List.replicate xs.length [0x00])).addResponses [[0x02, 0x05]]).addResponses _) = _
  rw [hout, hlen, Nat.add_comm, List.replicate_add]
  simp [State.addResponses]

/-- Settles O35: bytes without markers fill the buffer, the next one is reported, and out of frame the rest is
ignored. -/
theorem overflowForcesResync : Obligations.OverflowForcesResync := by
  refine ⟨fun xs ys b s hin he hbuf hlen hxs hb hys => ?_, fun p xs ys b s => feed_overflow⟩
  rw [← execAllAt_default]
  exact feed_overflow (p := .default) hin he hbuf hlen hxs hb hys

end Sys2Proof.Machine

/-! The invariants of the block (10_state R17, R21; 70_reset_and_hazards R216). What a received byte leaves in the
decoder and what an operation leaves in its ring are each said once; an instruction keeps the rest of the block, and a
step adds to instructions only resets and responses. -/

namespace Sys2Proof.Machine

variable {p : Config}

/-! ### Invariants depend on the units' contents alone -/

/-- States with the same block agree on every unit. -/
theorem SameUnit.of_block {s t : State} (h : s.block = t.block) (u : BlockUnit) : s.SameUnit t u := by
  obtain ⟨⟩ := s
  obtain ⟨⟩ := t
  cases h
  cases u with
  | crcGenerator => rfl
  | encoder => trivial
  | decoder => exact ⟨rfl, rfl, rfl⟩
  | ring k => cases k <;> exact ⟨rfl, rfl, rfl⟩

theorem State.DecInv.congr {s t : State} (hs : s.DecInv p) (h : s.SameUnit t .decoder) : t.DecInv p := by
  obtain ⟨hin, he, hbuf⟩ := h
  obtain ⟨h1, h2, h3⟩ := hs
  rw [State.AccOk, hbuf] at h3
  rw [hin, he] at h1
  rw [hin, he, hbuf] at h2
  exact ⟨h1, h2, h3⟩

theorem State.RingInv.congr {k : MsgClass} {s t : State} (hs : s.RingInv p k) (h : s.SameUnit t (.ring k)) :
    t.RingInv p k := by
  obtain ⟨hslots, hw, hd⟩ := h
  obtain ⟨h1, h2, h3, h4, h5⟩ := hs
  simp only [State.SlotOk, hslots] at h1 h2 h5
  exact ⟨h1, h2, hw ▸ h3, hd ▸ h4, h5⟩

theorem State.Inv.congr {s t : State} (hs : s.Inv p) (h : s.block = t.block) : t.Inv p :=
  ⟨hs.dec.congr (SameUnit.of_block h _), fun k => (hs.ring k).congr (SameUnit.of_block h _)⟩

/-! ### The decoder (R17) -/

/-- Empty and not escaping, as out of frame. -/
theorem decInv_of_empty {s : State} (he : s.decEscaping = false) (hbuf : s.decBuf = []) : s.DecInv p :=
  ⟨fun h => absurd h (by simp [he]), fun _ => ⟨hbuf, he⟩, by simp [State.AccOk, hbuf]⟩

/-- In frame with a buffer within its capacity. -/
theorem decInv_of_in {s : State} (hin : s.decInFrame = true) (hacc : s.AccOk p) : s.DecInv p :=
  ⟨fun _ => hin, fun h => absurd h (by simp [hin]), hacc⟩

theorem appendByte_decInv {v : Byte} {s t : State} (hin : s.decInFrame = true) (h : appendByte p v s = .next t) :
    t.DecInv p := by
  by_cases ho : s.AccOk p
  · rw [appendByte_eq v ho] at h
    cases h
    unfold afterAppend
    split
    · next hlt => exact decInv_of_in hin (by simp only [State.AccOk, List.length_append, List.length_singleton]; omega)
    · exact decInv_of_empty rfl rfl
  · rw [appendByte_refused v ho] at h; cases h

/-- A received byte keeps the decoder's invariants, case by case of R102. -/
theorem consume_decInv {b : Byte} {s t : State} (hs : s.DecInv p) (h : consume p b s = .next t) : t.DecInv p := by
  cases hin : s.decInFrame with
  | false =>
    rw [consume_out hin] at h
    split at h <;> cases h
    · exact decInv_of_in rfl (Nat.zero_le _)
    · exact hs.congr ⟨rfl, rfl, rfl⟩
  | true =>
    rw [consume, if_neg (by rw [hin]; decide)] at h
    split at h
    · exact appendByte_decInv (by exact hin) h
    split at h
    · cases h; exact decInv_of_in hin hs.acc_ok
    split at h
    · cases h; exact decInv_of_in hin (Nat.zero_le _)
    split at h
    · rw [inEof_eq hs.acc_ok] at h
      cases h; exact decInv_of_empty rfl rfl
    · exact appendByte_decInv hin h

/-- A sequence that completes passes through the state its first part leaves. -/
theorem andThen_eq_next {r : Result} {f : State → Result} {t : State} (h : andThen r f = .next t) :
    ∃ u, r = .next u ∧ f u = .next t := by
  cases r with
  | next u => exact ⟨u, rfl, h⟩
  | fault e => cases h
  | refused e => cases h

/-- What an instruction of the decoder is: one or two received bytes, leaving the frame with an answer, or no event. -/
theorem execAt_decoder {i : Instr} {s t : State} (hu : i.unit = .decoder) (h : execAt p i s = .next t) :
    (∃ b, consume p b s = .next t) ∨ (∃ b0 b1, consumePair p b0 b1 s = .next t) ∨
      (∃ r, t = respond r (leaveFrame s)) ∨ t = noEvent s := by
  cases i with
  | crcInit | crcByte | crcRead | stuff | encFrame | rbInit | rbAdd | rbFind | rbAdv | rbCount | rbRstd | rbRead =>
    cases hu
  | decByte | sof | eof | esc | data | typeStatus | typeTime | typeCall | typeNotify | typePing | typeAck =>
    exact .inl ⟨_, h⟩
  | escPair7E | escPair7F | escPair7D => exact .inr (.inl ⟨_, _, h⟩)
  | decReset | evFrame | evBad | tooShort | badVersion | lenMismatch | crcMismatch | overflow =>
    cases h; exact .inr (.inr (.inl ⟨_, rfl⟩))
  | evNone => cases h; exact .inr (.inr (.inr rfl))

/-- Every instruction keeps the decoder's invariants: its own by what they are, the others by not writing it. -/
theorem execAt_decInv {i : Instr} {s t : State} (hs : s.DecInv p) (h : execAt p i s = .next t) : t.DecInv p := by
  by_cases hu : i.unit = .decoder
  · rcases execAt_decoder hu h with ⟨b, hb⟩ | ⟨b0, b1, hb⟩ | ⟨r, rfl⟩ | rfl
    · exact consume_decInv hs hb
    · obtain ⟨u, h0, h1⟩ := andThen_eq_next hb
      exact consume_decInv (consume_decInv hs h0) h1
    · exact decInv_of_empty rfl rfl
    · exact hs.congr ⟨rfl, rfl, rfl⟩
  · exact hs.congr ((onlyUnit_of_execAt h).1 .decoder (Ne.symm hu))

/-- Settles O53: at the defaults. -/
theorem decoderInvariantsAreKept : Obligations.DecoderInvariantsAreKept :=
  fun i s _ hs h => execAt_decInv hs ((execAt_default i s).trans h)

/-! ### The ring buffers (R21) -/

/-- What an instruction of a ring leaves in it: zeroed slots and cursors, one slot written and the write cursor moved
on, or at most the display cursor moved, into range. -/
theorem execAt_ring (hf : p.Fits) {i : Instr} {k : MsgClass} {s t : State} (hu : i.unit = .ring k)
    (h : execAt p i s = .next t) :
    (i = .rbInit k ∧ t.slots k = Memory.zeroed ∧ t.wCursor k = 0 ∧ t.dCursor k = 0) ∨
    (∃ content, i = .rbAdd k content ∧
      t.slots k = (s.slots k).writeBytes (slotAddr p (clamp p k (s.wCursor k)) 0) (slotImage p content) ∧
      t.wCursor k = nextCursor p k (clamp p k (s.wCursor k)) ∧ t.dCursor k = s.dCursor k) ∨
    (t.slots k = s.slots k ∧ t.wCursor k = s.wCursor k ∧
      (t.dCursor k < capacity p k ∧ (i = .rbFind k ∨ i = .rbAdv k ∨ i = .rbRstd k) ∨
        t.dCursor k = s.dCursor k ∧ (i = .rbCount k ∨ i = .rbRead k))) := by
  have hmoved : ∀ (r : List Byte) {d : Nat}, d < capacity p k →
      (respond r (s.setD k d)).slots k = s.slots k ∧ (respond r (s.setD k d)).wCursor k = s.wCursor k ∧
        (respond r (s.setD k d)).dCursor k < capacity p k :=
    fun r d hd => ⟨by simp, by simp, by simpa [State.dCursor_setD s hf k k hd] using hd⟩
  have h0 := capacity_pos hf k
  cases i with
  | rbInit k' =>
    cases hu; cases h
    exact .inl ⟨rfl, by simp, by simp [State.wCursor_setW _ hf k k h0], by simp [State.dCursor_setD _ hf k k h0]⟩
  | rbAdd k' content =>
    cases hu; cases h
    exact .inr (.inl ⟨content, rfl, by simp, by simp [State.wCursor_setW _ hf k k (nextCursor_lt hf k _)], by simp⟩)
  | rbFind k' =>
    cases hu
    obtain ⟨j, r, hj, he⟩ := execRbFindAt_cases hf k s
    cases he.symm.trans h
    obtain ⟨hslots, hw, hd⟩ := hmoved r hj
    exact .inr (.inr ⟨hslots, hw, .inl ⟨hd, .inl rfl⟩⟩)
  | rbAdv k' =>
    cases hu; cases h
    obtain ⟨hslots, hw, hd⟩ := hmoved [] (nextCursor_lt hf k (clamp p k (s.dCursor k)))
    exact .inr (.inr ⟨hslots, hw, .inl ⟨hd, .inr (.inl rfl)⟩⟩)
  | rbCount k' => cases hu; cases h; exact .inr (.inr ⟨by simp, by simp, .inr ⟨by simp, .inl rfl⟩⟩)
  | rbRstd k' =>
    cases hu; cases h
    obtain ⟨hslots, hw, hd⟩ := hmoved [] h0
    exact .inr (.inr ⟨hslots, hw, .inl ⟨hd, .inr (.inr rfl)⟩⟩)
  | rbRead k' => cases hu; cases h; exact .inr (.inr ⟨by simp, by simp, .inr ⟨by simp, .inr rfl⟩⟩)
  | _ => cases hu

/-- The flag and the padding of a slot image (R133). -/
theorem slotImage_getD (p : Config) (content : List Byte) :
    (slotImage p content).getD 0 0x00 = p.enValue ∧ (slotImage p content).getD 1 0x00 = 0x00 := ⟨rfl, rfl⟩

/-- A slot written in range stays in the memory (R32). -/
theorem writeBytes_slot_inRange (hf : p.Fits) {k : MsgClass} {m : Memory} {w : Nat} (hw : w < capacity p k)
    (content : List Byte) (hm : m.inRange p k) :
    (m.writeBytes (slotAddr p w 0) (slotImage p content)).inRange p k := by
  intro c hc
  rcases Memory.mem_writeBytes hc with ⟨-, hlt⟩ | hc
  · have hslot := Nat.mul_le_mul_left p.slotBytes (Nat.succ_le_of_lt hw)
    rw [slotImage_length hf, slotAddr, Nat.add_zero, ← Nat.mul_succ] at hlt
    exact hlt.trans_le hslot
  · exact hm c hc

/-- RB_ADD's write keeps every slot empty or enabled with zero padding (R21 b). -/
theorem slotOk_write (hf : p.Fits) {k : MsgClass} {s t : State} {w j : Nat} {content : List Byte}
    (ht : t.slots k = (s.slots k).writeBytes (slotAddr p w 0) (slotImage p content)) (hs : s.SlotOk p k j) :
    t.SlotOk p k j := by
  have h2 := hf.slot_ge
  have hread : ∀ i, i < p.slotBytes → (t.slots k).read (slotAddr p j i) =
      if j = w then (slotImage p content).getD i 0x00 else (s.slots k).read (slotAddr p j i) := fun i hi => by
    rw [ht, read_slotAddr_write hf _ _ _ _ _ hi]
  by_cases hj : j = w
  · obtain ⟨hflag, hpad⟩ := slotImage_getD p content
    refine .inr ⟨?_, ?_⟩
    · rw [hread 0 (by omega), if_pos hj, hflag]
    · rw [hread 1 (by omega), if_pos hj, hpad]
  · simp only [if_neg hj] at hread
    rcases hs with hs | ⟨hflag, hpad⟩
    · exact .inl fun i hi => (hread i hi).trans (hs i hi)
    · exact .inr ⟨(hread 0 (by omega)).trans hflag, (hread 1 (by omega)).trans hpad⟩

/-- A ring with zeroed slots and cursors meets its invariants. -/
theorem ringInv_of_zeroed (hf : p.Fits) {k : MsgClass} {s : State} (hslots : s.slots k = Memory.zeroed)
    (hw : s.wCursor k = 0) (hd : s.dCursor k = 0) : s.RingInv p k where
  mem_wf := hslots ▸ Memory.wf_zeroed
  mem_range := by rw [hslots]; exact nofun
  w_lt := hw ▸ capacity_pos hf k
  d_lt := hd ▸ capacity_pos hf k
  slot_ok := fun _ _ => .inl fun _ _ => by rw [hslots, read_zeroed]

/-- Every instruction keeps the invariants of each ring. -/
theorem execAt_ringInv (hf : p.Fits) {i : Instr} {k : MsgClass} {s t : State} (hs : s.RingInv p k)
    (h : execAt p i s = .next t) : t.RingInv p k := by
  by_cases hu : i.unit = .ring k
  · obtain ⟨hwf, hrange, hw, hd, hok⟩ := hs
    rcases execAt_ring hf hu h with ⟨-, hslots, hw', hd'⟩ | ⟨content, -, hslots, hw', hd'⟩ | ⟨hslots, hw', hd'⟩
    · exact ringInv_of_zeroed hf hslots hw' hd'
    · exact {
        mem_wf := hslots ▸ Memory.wf_writeBytes _ _ hwf
        mem_range := hslots ▸ writeBytes_slot_inRange hf (clamp_lt hf k _) content hrange
        w_lt := hw' ▸ nextCursor_lt hf k _
        d_lt := hd' ▸ hd
        slot_ok := fun j hj => slotOk_write hf hslots (hok j hj) }
    · have hd'' : t.dCursor k < capacity p k := by
        rcases hd' with ⟨hd', -⟩ | ⟨hd', -⟩
        · exact hd'
        · exact hd' ▸ hd
      simp only [State.SlotOk, ← hslots] at hwf hrange hok
      exact ⟨hwf, hrange, hw' ▸ hw, hd'', hok⟩
  · exact hs.congr ((onlyUnit_of_execAt h).1 (.ring k) (Ne.symm hu))

/-! ### A step (R6, R200) -/

/-- An instruction is fetched with its bytes taken from the input and nothing else changed. -/
theorem fetch_run_block {i : Instr} {s t : State} (h : fetch p s = .run i t) : s.block = t.block := by
  unfold fetch fetchRequest fetchWire at h
  repeat' split at h
  all_goals cases h
  all_goals rfl

/-- A request that is no instruction changes nothing of the block. -/
theorem fetchRequest_done_block {bytes : List Byte} {later : List Input} {s t : State}
    (h : fetchRequest p bytes later s = .done t) : s.block = t.block := by
  unfold fetchRequest at h
  split at h <;> cases h <;> rfl

/-- Received bytes that are no row change nothing of the block. -/
theorem fetchWire_done_block {bytes : List Byte} {later : List Input} {s t : State}
    (h : fetchWire p bytes later s = .done t) : s.block = t.block := by
  unfold fetchWire at h
  split at h <;> cases h
  rfl

/-- Where no instruction stands next, the block is as before or reset. -/
theorem fetch_done_block {s t : State} (h : fetch p s = .done t) :
    s.block = t.block ∨ (State.resetAt p).block = t.block := by
  unfold fetch at h
  split at h
  · cases h; exact .inl rfl
  · cases h; exact .inr rfl
  · exact .inl (fetchRequest_done_block h)
  · exact .inl (fetchWire_done_block h)

theorem resetAt_inv (hf : p.Fits) : (State.resetAt p).Inv p :=
  ⟨decInv_of_empty rfl rfl,
    fun k => ringInv_of_zeroed hf (slots_resetAt p k) (wCursor_resetAt p k) (dCursor_resetAt p k)⟩

theorem execAt_inv (hf : p.Fits) {i : Instr} {s t : State} (hs : s.Inv p) (h : execAt p i s = .next t) : t.Inv p :=
  ⟨execAt_decInv hs.dec h, fun k => execAt_ringInv hf (hs.ring k) h⟩

theorem stepAt_inv (hf : p.Fits) {s t : State} (hs : s.Inv p) (h : stepAt p s = .next t) : t.Inv p := by
  unfold stepAt at h
  cases hfetch : fetch p s with
  | run i u => rw [hfetch] at h; exact execAt_inv hf (hs.congr (fetch_run_block hfetch)) h
  | done u =>
    rw [hfetch] at h
    cases h
    rcases fetch_done_block hfetch with hb | hb
    · exact hs.congr hb
    · exact (resetAt_inv hf).congr hb
  | stop r => rw [hfetch] at h; cases h

/-- Settles O54: an instruction keeps the decoder's and each ring's invariants, and where no instruction stands next the
block is as before or reset. -/
theorem stepKeepsTheInvariants : Obligations.StepKeepsTheInvariants :=
  ⟨fun s _ hs h => stepAt_inv Config.default_fits hs ((stepAt_default s).trans h), fun _ _ _ hf => stepAt_inv hf⟩

/-- Settles O56: every unit has its reset contents. -/
theorem resetHasTheInvariants : Obligations.ResetHasTheInvariants := resetAt_inv Config.default_fits

/-! ### Cursors and enabled flags (R216, R21 c) -/

/-- Settles O55: an instruction of the ring is one of `execAt_ring`'s three kinds, any other leaves both cursors. -/
theorem changedCursorsAreInRange : Obligations.ChangedCursorsAreInRange := by
  intro i k s t h
  rw [← execAt_default] at h
  have hf := Config.default_fits
  by_cases hu : i.unit = .ring k
  · have h0 := capacity_pos hf k
    rcases execAt_ring hf hu h with
      ⟨rfl, -, hw, hd⟩ | ⟨content, rfl, -, hw, hd⟩ | ⟨-, hw, ⟨hd, hi⟩ | ⟨hd, hi⟩⟩
    · exact ⟨.inr (hw ▸ h0), .inr (hd ▸ h0), fun _ => hw ▸ h0, fun _ => hd ▸ h0⟩
    · have hlt := nextCursor_lt hf k (clamp .default k (s.wCursor k))
      exact ⟨.inr (hw ▸ hlt), .inl hd, fun _ => hw ▸ hlt, by simp⟩
    · refine ⟨.inl hw, .inr hd, ?_, fun _ => hd⟩
      rcases hi with rfl | rfl | rfl <;> simp
    · refine ⟨.inl hw, .inl hd, ?_, ?_⟩ <;> rcases hi with rfl | rfl <;> simp
  · obtain ⟨-, hw, hd⟩ := (onlyUnit_of_execAt h).1 (.ring k) (Ne.symm hu)
    refine ⟨.inl hw.symm, .inl hd.symm, fun hi => absurd ?_ hu, fun hi => absurd ?_ hu⟩
    · rcases hi with rfl | ⟨content, rfl⟩ <;> rfl
    · rcases hi with rfl | rfl | rfl | rfl <;> rfl

/-- Settles O50: the one instruction that clears a flag is RB_INIT; RB_ADD writes one that is set. -/
theorem enabledSlotsStayEnabled : Obligations.EnabledSlotsStayEnabled := by
  intro i k j s t h hi hj hen
  rw [← execAt_default] at h
  have hf := Config.default_fits
  by_cases hu : i.unit = .ring k
  · rcases execAt_ring hf hu h with ⟨rfl, -⟩ | ⟨content, -, hslots, -⟩ | ⟨hslots, -⟩
    · exact absurd rfl hi
    · have hread := read_slotAddr_write hf (s.slots k) (clamp .default k (s.wCursor k)) j 0 content (by decide)
      rw [hslots]
      refine ne_of_eq_of_ne hread ?_
      split
      · exact hf.enabled
      · exact hen
    · exact hslots ▸ hen
  · obtain ⟨hslots, -⟩ := (onlyUnit_of_execAt h).1 (.ring k) (Ne.symm hu)
    exact hslots ▸ hen

end Sys2Proof.Machine

/-! The encodings (30_encoding R54, R55, R61 to R64; 44_context_clients R150; 60_exceptions R181): each row kind's
decoder reads an encoding back, whatever follows it, and accepts nothing but encodings. So a code byte is assigned or
rejected by name, and no request cut short is a request. -/

namespace Sys2Proof.Machine

variable {p : Config}

/-! ### Encodings are read back -/

/-- The class bit is read back from a code whose own bit 3 is clear (R60). -/
theorem classOf_or_classBit (k : MsgClass) {c : Byte} (h : c.getLsbD 3 = false) : classOf (c ||| classBit k) = k := by
  rw [classOf, BitVec.getLsbD_or, h]
  cases k <;> rfl

/-- A request that is a code with its class alone. -/
theorem decodeOp_classed {k : MsgClass} {o : Opcode} {mk : MsgClass → Instr} {rest : List Byte}
    (hk : classOf (codeOf k o) = k)
    (hmk : decodeOperands p (codeOf k o) rest o = .ok (mk (classOf (codeOf k o))) rest) :
    decodeOp p (codeOf k o :: rest) = .ok (mk k) rest := by
  rw [decodeOp_codeOf, hmk, hk]

theorem classify_sof (p : Config) : classify p p.sof = .sof := if_pos rfl

theorem classify_eof (hv : p.Valid) : classify p p.eof = .eof := by
  obtain ⟨h1, -, -⟩ := hv.markers_differ
  rw [classify, if_neg h1.symm, if_pos rfl]

theorem classify_esc (hv : p.Valid) : classify p p.esc = .esc := by
  obtain ⟨-, h2, h3⟩ := hv.markers_differ
  rw [classify, if_neg h2.symm, if_neg h3.symm, if_pos rfl]

theorem classify_data {b : Byte} (h : isMarker p b = false) : classify p b = .data b := by
  obtain ⟨h1, h2, h3⟩ := (isMarker_false_iff p b).mp h
  rw [classify, if_neg h1, if_neg h2, if_neg h3]

/-- Escaped markers differ as the markers do. -/
theorem mask_ne {a b : Byte} (h : a ≠ b) : a ^^^ p.mask ≠ b ^^^ p.mask := by
  intro hab
  rw [← mask_mask p a, hab, mask_mask] at h
  exact h rfl

theorem pairOf_sof (p : Config) : pairOf p (p.sof ^^^ p.mask) = some .escPair7E := if_pos rfl

theorem pairOf_eof (hv : p.Valid) : pairOf p (p.eof ^^^ p.mask) = some .escPair7F := by
  obtain ⟨h1, -, -⟩ := hv.markers_differ
  rw [pairOf, if_neg (mask_ne h1.symm), if_pos rfl]

theorem pairOf_esc (hv : p.Valid) : pairOf p (p.esc ^^^ p.mask) = some .escPair7D := by
  obtain ⟨-, h2, h3⟩ := hv.markers_differ
  rw [pairOf, if_neg (mask_ne h2.symm), if_neg (mask_ne h3.symm), if_pos rfl]

theorem decodeWireByte_cons {b : Byte} {i : Instr} (h : classify p b = i) (rest : List Byte) :
    decodeWireByte p (b :: rest) = .ok i rest := by rw [decodeWireByte, h]

theorem decodeWirePair_esc {x : Byte} {i : Instr} (h : pairOf p x = some i) (rest : List Byte) :
    decodeWirePair p (p.esc :: x :: rest) = .ok i rest := by
  simp only [decodeWirePair, if_true, h]

theorem decodeReason_cons (r : BadReason) (rest : List Byte) :
    decodeReason (reasonCode r :: rest) = .ok (reasonRow r) rest := by simp only [decodeReason, reasonOf_reasonCode]

/-- A FRAME event's fields, written out, are read back (R63). -/
theorem decodeFrameEvent_frameBody {f : Frame} (hw : f.wellFormed p = true) (rest : List Byte) :
    decodeFrameEvent p (frameBody f ++ rest) = .ok (.evFrame f) rest := by
  have hl : f.payload.length < 256 := by
    rw [Frame.wellFormed, Bool.and_eq_true] at hw
    exact Nat.lt_succ_of_le (of_decide_eq_true hw.2)
  simp only [frameBody, beBytes, List.cons_append, List.nil_append, List.append_assoc, decodeFrameEvent,
    toNat_byteOf hl, List.drop_left', List.take_left', join16_hi_lo, hw, if_true]

theorem decodeEvent_bad (p : Config) (r : BadReason) (rest : List Byte) :
    decodeEvent p (eventBytes (.bad r) ++ rest) = .ok (.evBad r) rest := by cases r <;> rfl

/-- Decoding undoes encoding, row by row of the opcode table. -/
theorem decode_encode (hv : p.Valid) {i : Instr} (hw : i.wellFormed p = true) (rest : List Byte) :
    decode p i.kind (encode p i ++ rest) = .ok i rest := by
  cases i with
  | crcInit => exact decodeOp_codeOf p .normal .crcInit rest
  | crcByte b => exact decodeOp_codeOf p .normal .crcByte (b :: rest)
  | crcRead => exact decodeOp_codeOf p .normal .crcRead rest
  | stuff b => exact decodeOp_codeOf p .normal .stuff (b :: rest)
  | encFrame type flags seq payload =>
    exact (decodeOp_codeOf p .normal .encFrame
      (type :: flags :: seq :: byteOf payload.length :: (payload ++ rest))).trans
      (frameOp_of_length 0x11 type flags seq rest (Nat.lt_succ_of_le (of_decide_eq_true hw)))
  | decReset => exact decodeOp_codeOf p .normal .decReset rest
  | decByte b => exact decodeOp_codeOf p .normal .decByte (b :: rest)
  | rbInit k => exact decodeOp_classed (o := .rbInit) (classOf_or_classBit k rfl) rfl
  | rbAdd k content =>
    refine (decodeOp_codeOf p k .rbAdd _).trans ((slotOp_of_length _ rest (of_decide_eq_true hw)).trans ?_)
    rw [codeOf, classOf_or_classBit k rfl]
  | rbFind k => exact decodeOp_classed (o := .rbFind) (classOf_or_classBit k rfl) rfl
  | rbAdv k => exact decodeOp_classed (o := .rbAdv) (classOf_or_classBit k rfl) rfl
  | rbCount k => exact decodeOp_classed (o := .rbCount) (classOf_or_classBit k rfl) rfl
  | rbRstd k => exact decodeOp_classed (o := .rbRstd) (classOf_or_classBit k rfl) rfl
  | rbRead k => exact decodeOp_classed (o := .rbRead) (classOf_or_classBit k rfl) rfl
  | sof => exact decodeWireByte_cons (classify_sof p) rest
  | eof => exact decodeWireByte_cons (classify_eof hv) rest
  | esc => exact decodeWireByte_cons (classify_esc hv) rest
  | data b => exact decodeWireByte_cons (classify_data (by simpa [Instr.wellFormed] using hw)) rest
  | escPair7E => exact decodeWirePair_esc (pairOf_sof p) rest
  | escPair7F => exact decodeWirePair_esc (pairOf_eof hv) rest
  | escPair7D => exact decodeWirePair_esc (pairOf_esc hv) rest
  | typeStatus | typeTime | typeCall | typeNotify | typePing | typeAck => rfl
  | evNone => rfl
  | evFrame f => exact decodeFrameEvent_frameBody hw rest
  | evBad r => exact decodeEvent_bad p r rest
  | tooShort => exact decodeReason_cons .tooShort rest
  | badVersion => exact decodeReason_cons .badVersion rest
  | lenMismatch => exact decodeReason_cons .lenMismatch rest
  | crcMismatch => exact decodeReason_cons .crcMismatch rest
  | overflow => exact decodeReason_cons .overflow rest

/-- Settles O57: at the defaults and at any parameters R4 allows. -/
theorem decodeOfEncode : Obligations.DecodeOfEncode :=
  ⟨fun _ rest hw => decode_encode Config.default_valid hw rest, fun _ _ rest hv hw => decode_encode hv hw rest⟩

/-- Settles O60: each sample word is the encoding of what it stands for. -/
theorem sampleWordsDecode : Obligations.SampleWordsDecode :=
  have back : ∀ {i : Instr}, i.wellFormed .default = true →
      decode .default i.kind (encode .default i ++ []) = .ok i [] := fun hw => decode_encode Config.default_valid hw []
  ⟨back (i := .crcByte 0x31) rfl, back (i := .encFrame 0x04 0x00 0x07 [0x48, 0x69]) rfl, back (i := .decByte 0x7E) rfl,
    back (i := .rbFind .emergency) rfl, back (i := .rbCount .normal) rfl, back (i := .sof) rfl,
    back (i := .escPair7F) rfl, back (i := .typeAck) rfl, back (i := .evBad .crcMismatch) rfl,
    back (i := .overflow) rfl⟩

/-! ### What is read is an encoding -/

theorem oneByteOp_ok {mk : Byte → Instr} {op : Byte} {bytes rest : List Byte} {i : Instr}
    (h : oneByteOp mk op bytes = .ok i rest) : ∃ b, bytes = b :: rest ∧ i = mk b := by
  cases bytes with
  | nil => cases h
  | cons b bytes => cases h; exact ⟨b, rfl, rfl⟩

theorem frameOp_ok {op : Byte} {bytes rest : List Byte} {i : Instr} (h : frameOp op bytes = .ok i rest) :
    ∃ type flags seq payload, i = .encFrame type flags seq payload ∧ payload.length ≤ 255 ∧
      bytes = [type, flags, seq, byteOf payload.length] ++ payload ++ rest := by
  unfold frameOp at h
  split at h
  · next type flags seq plen bytes =>
    split at h <;> cases h
    next hle =>
    have hlen : (bytes.take plen.toNat).length = plen.toNat := List.length_take_of_le hle
    refine ⟨type, flags, seq, _, rfl, ?_, ?_⟩
    · rw [hlen]; exact Nat.le_of_lt_succ plen.isLt
    · rw [hlen, byteOf_toNat, List.append_assoc, List.take_append_drop]; rfl
  · cases h

theorem slotOp_ok {op : Byte} {bytes rest : List Byte} {i : Instr} (h : slotOp p op bytes = .ok i rest) :
    ∃ content, i = .rbAdd (classOf op) content ∧ content.length = p.contentBytes ∧ bytes = content ++ rest := by
  unfold slotOp at h
  split at h <;> cases h
  next hle => exact ⟨_, rfl, List.length_take_of_le hle, (List.take_append_drop ..).symm⟩

/-- The bytes of a request are its code, which is the operation's own, and its operands. -/
theorem decodeOp_ok {bytes rest : List Byte} {i : Instr} (h : decodeOp p bytes = .ok i rest) :
    i.wellFormed p = true ∧ i.kind = .op ∧ bytes = encode p i ++ rest := by
  cases bytes with
  | nil => cases h
  | cons op bytes =>
  cases ho : lookupOp op with
  | none => simp only [decodeOp, ho] at h; cases h
  | some o =>
  simp only [decodeOp, ho] at h
  have hop := eq_codeOf_of_lookupOp ho
  cases o with
  | crcInit | crcRead | decReset | rbInit | rbFind | rbAdv | rbCount | rbRstd | rbRead =>
    cases h; exact ⟨rfl, rfl, congrArg (· :: _) hop⟩
  | crcByte | stuff | decByte =>
    obtain ⟨b, rfl, rfl⟩ := oneByteOp_ok h
    exact ⟨rfl, rfl, congrArg (· :: _) hop⟩
  | encFrame =>
    obtain ⟨type, flags, seq, payload, rfl, hlen, rfl⟩ := frameOp_ok h
    exact ⟨decide_eq_true hlen, rfl, congrArg (· :: _) hop⟩
  | rbAdd =>
    obtain ⟨content, rfl, hlen, rfl⟩ := slotOp_ok h
    exact ⟨decide_eq_true hlen, rfl, congrArg (· :: _) hop⟩

theorem decodeWireByte_ok {bytes rest : List Byte} {i : Instr} (h : decodeWireByte p bytes = .ok i rest) :
    i.wellFormed p = true ∧ i.kind = .wireByte ∧ bytes = encode p i ++ rest := by
  cases bytes with
  | nil => cases h
  | cons b bytes =>
    cases h
    obtain ⟨hbytes, hkind, hw⟩ := encode_classify p b
    exact ⟨hw, hkind, by rw [hbytes]; rfl⟩

theorem decodeWirePair_ok {bytes rest : List Byte} {i : Instr} (h : decodeWirePair p bytes = .ok i rest) :
    i.wellFormed p = true ∧ i.kind = .wirePair ∧ bytes = encode p i ++ rest := by
  unfold decodeWirePair at h
  split at h
  · next e x bytes =>
    split at h <;> try cases h
    next he =>
    split at h <;> cases h
    next hpair =>
    obtain ⟨hbytes, hkind, hw⟩ := encode_of_pairOf (p := p) hpair
    exact ⟨hw, hkind, by rw [hbytes, he]; rfl⟩
  · cases h

theorem decodeFrameType_ok {bytes rest : List Byte} {i : Instr} (h : decodeFrameType bytes = .ok i rest) :
    i.wellFormed p = true ∧ i.kind = .frameType ∧ bytes = encode p i ++ rest := by
  unfold decodeFrameType at h
  split at h
  · cases h
  · next b bytes =>
    split at h <;> cases h
    next htype =>
    obtain ⟨hbytes, hkind, hw⟩ := encode_of_typeOf (p := p) htype
    exact ⟨hw, hkind, by rw [hbytes]; rfl⟩

theorem decodeReason_ok {bytes rest : List Byte} {i : Instr} (h : decodeReason bytes = .ok i rest) :
    i.wellFormed p = true ∧ i.kind = .badReason ∧ bytes = encode p i ++ rest := by
  unfold decodeReason at h
  split at h
  · cases h
  · next c bytes =>
    split at h <;> cases h
    next r hr =>
    rw [reasonCode_of_reasonOf hr]
    cases r <;> exact ⟨rfl, rfl, rfl⟩

theorem decodeFrameEvent_ok {bytes rest : List Byte} {i : Instr} (h : decodeFrameEvent p bytes = .ok i rest) :
    ∃ f, i = .evFrame f ∧ f.wellFormed p = true ∧ bytes = frameBody f ++ rest := by
  unfold decodeFrameEvent at h
  split at h
  · next version type flags seq len bytes =>
    split at h
    · next hi lo rest' hdrop =>
      dsimp only at h
      split at h <;> cases h
      next hw =>
      have hlen : (bytes.take len.toNat).length = len.toNat := by
        have := congrArg List.length hdrop
        simp only [List.length_drop, List.length_cons, List.length_take] at this ⊢
        omega
      refine ⟨_, rfl, hw, ?_⟩
      simp only [frameBody, beBytes, hlen, byteOf_toNat, hiByte_join16, loByte_join16, List.append_assoc,
        List.cons_append, List.nil_append, ← hdrop, List.take_append_drop]
    · cases h
  · cases h

theorem decodeEvent_ok {bytes rest : List Byte} {i : Instr} (h : decodeEvent p bytes = .ok i rest) :
    i.wellFormed p = true ∧ i.kind = .eventKind ∧ bytes = encode p i ++ rest := by
  cases bytes with
  | nil => cases h
  | cons kind bytes =>
  unfold decodeEvent at h
  dsimp only at h
  split at h
  · next hkind => cases h; exact ⟨rfl, rfl, by rw [hkind]; rfl⟩
  split at h
  · next hkind =>
    obtain ⟨f, rfl, hw, rfl⟩ := decodeFrameEvent_ok h
    exact ⟨hw, rfl, by rw [hkind]; rfl⟩
  split at h
  · next hkind =>
    split at h
    · cases h
    · next c bytes =>
      split at h <;> cases h
      next r hr => exact ⟨rfl, rfl, by rw [hkind, reasonCode_of_reasonOf hr]; rfl⟩
  · cases h

/-- Settles O58: one row kind's decoder after the other. -/
theorem encodeOfDecode : Obligations.EncodeOfDecode := by
  intro p kind bytes rest i h
  cases kind with
  | op => exact decodeOp_ok h
  | wireByte => exact decodeWireByte_ok h
  | wirePair => exact decodeWirePair_ok h
  | frameType => exact decodeFrameType_ok h
  | eventKind => exact decodeEvent_ok h
  | badReason => exact decodeReason_ok h

/-! ### What is rejected -/

/-- A code byte is rejected only as unassigned, or for want of operand bytes. -/
theorem decodeOp_cons_rejected {op : Byte} {bytes : List Byte} {r : Reject}
    (h : decodeOp p (op :: bytes) = .rejected r) :
    (UnassignedCode op ∧ r = .unassigned op) ∨ r = .truncated op := by
  cases ho : lookupOp op with
  | none =>
    have hun := (unassigned_iff op).mpr ho
    rw [decodeOp_of_unassigned p bytes hun] at h
    cases h
    exact .inl ⟨hun, rfl⟩
  | some o =>
    simp only [decodeOp, ho] at h
    right
    cases o with
    | crcInit | crcRead | decReset | rbInit | rbFind | rbAdv | rbCount | rbRstd | rbRead => cases h
    | crcByte | stuff | decByte => cases bytes <;> cases h; rfl
    | encFrame =>
      simp only [decodeOperands, frameOp] at h
      repeat' split at h
      all_goals cases h
      all_goals rfl
    | rbAdd =>
      simp only [decodeOperands, slotOp] at h
      split at h <;> cases h
      rfl

/-- Settles O59: an unassigned code is rejected by that name, and no other rejection of a code byte has it. -/
theorem codesAreAssignedOrNot : Obligations.CodesAreAssignedOrNot := by
  refine fun op rest => ⟨decodeOp_of_unassigned .default rest, fun h => ?_⟩
  rcases decodeOp_cons_rejected h with ⟨hun, -⟩ | hr
  · exact hun
  · cases hr

/-- A proper part of a request, its code byte at least, is rejected as truncated: what decodes is an encoding, and the
whole request, read as that one, would leave bytes over. -/
theorem decodeOp_truncated (hv : p.Valid) {i : Instr} {op : Byte} {given missing : List Byte}
    (hw : i.wellFormed p = true) (hk : i.kind = .op) (he : encode p i = op :: given ++ missing)
    (hm : missing ≠ []) : decodeOp p (op :: given) = .rejected (.truncated op) := by
  have hwhole : decodeOp p (op :: (given ++ missing)) = .ok i [] := by
    have := decode_encode hv hw []
    rwa [hk, he, List.append_nil] at this
  cases hd : decodeOp p (op :: given) with
  | ok j rest =>
    obtain ⟨hwj, hkj, hej⟩ := decodeOp_ok hd
    have hagain := decode_encode hv hwj (rest ++ missing)
    rw [hkj, ← List.append_assoc, ← hej] at hagain
    obtain ⟨-, hnil⟩ := Decoded.ok.inj (hagain.symm.trans hwhole)
    exact absurd (List.append_eq_nil_iff.mp hnil).2 hm
  | rejected r =>
    rcases decodeOp_cons_rejected hd with ⟨hun, -⟩ | rfl
    · rw [decodeOp_of_unassigned p _ hun] at hwhole; cases hwhole
    · rfl

/-- Settles O6: the cut request is rejected as truncated, on which the step stops. -/
theorem truncatedRequestStops : Obligations.TruncatedRequestStops := by
  intro s i op given missing later hw hk he hm hin
  have hfetch : fetch .default s = .stop (.truncatedRequest op) := by
    rw [fetch_of_request hin, fetchRequest, decodeOp_truncated Config.default_valid hw hk he hm]
  rw [step, hfetch]

end Sys2Proof.Machine

/-! Runs of the machine (00_scope R6; 20_memory R30, R41, R46; 70_reset_and_hazards R200, R202, R214): a step runs the
row its decoder reads, so a chunk of requests runs as the operations it encodes and a chunk of received bytes as one
DEC_BYTE each; every instruction completes and writes its own unit alone, so instructions of different units may be
exchanged. -/

namespace Sys2Proof.Machine

variable {p : Config}

/-! ### One step -/

/-- A step that finds an instruction is its meaning in the state `fetch` gives. -/
theorem step_of_fetch_run {i : Instr} {s t : State} (h : fetch .default s = .run i t) : step s = exec i t := by
  simp only [step, h]

/-- A chunk of received bytes is served by `fetchWire`. -/
theorem fetch_of_wire {s : State} {bytes : List Byte} {later : List Input} (h : s.input = .wire bytes :: later) :
    fetch p s = fetchWire p bytes later s := by
  simp only [fetch, h]

theorem step_request {s : State} {bytes rest : List Byte} {later : List Input} {i : Instr}
    (hin : s.input = .request bytes :: later) (hd : decodeOp .default bytes = .ok i rest) :
    step s = exec i { s with input := chunkLeft .request rest later } := by
  apply step_of_fetch_run
  rw [fetch_of_request hin, fetchRequest, hd]

theorem step_wire {s : State} {bytes rest : List Byte} {later : List Input} {i : Instr}
    (hin : s.input = .wire bytes :: later) (hd : decodeWire .default s.atTypeByte bytes = .ok i rest) :
    step s = exec i { s with input := chunkLeft .wire rest later } := by
  apply step_of_fetch_run
  rw [fetch_of_wire hin, fetchWire, hd]

/-- Settles O4: what is left of the chunk stands in front of the later input. -/
theorem stepRunsDecoded : Obligations.StepRunsDecoded := by
  refine ⟨fun s bytes rest later i hin hd => ?_, fun s bytes rest later i hin hd => ?_⟩
  · rw [step_request hin hd, chunkLeft_eq]
  · rw [step_wire hin hd, chunkLeft_eq]

/-- Settles O2: reset and an empty input are no instruction, and `fetch` says what they leave. -/
theorem resetAppliedAndWaiting : Obligations.ResetAppliedAndWaiting := by
  refine ⟨fun s later hin => ?_, fun s hin => ?_⟩
  · have hfetch : fetch .default s = .done (applyReset .default { s with input := later }) := by simp only [fetch, hin]
    exact ⟨_, step_of_fetch_done hfetch, rfl, rfl, rfl⟩
  · exact step_of_fetch_done (by simp only [fetch, hin])

/-! ### A chunk of requests -/

theorem encode_ne_nil (i : Instr) : encode p i ≠ [] := by
  cases i <;> simp [encode, eventBytes]

/-- The machine takes the first request of a chunk of whole requests, and leaves a chunk of the others. -/
theorem step_encoded {i : Instr} {rest : List Byte} {s : State} (hw : i.wellFormed .default = true) (hk : i.kind = .op)
    (hin : s.input = [.request (encode .default i ++ rest)]) :
    step s = exec i { s with input := chunkLeft .request rest [] } := by
  apply step_request hin
  have := decode_encode Config.default_valid hw rest
  rwa [hk] at this

/-- As many steps as operations run what is left of a chunk of whole requests. -/
theorem run_requests {ops : List Instr} {s : State} (hops : ∀ i ∈ ops, i.wellFormed .default = true ∧ i.kind = .op)
    (hin : s.input = chunkLeft .request (ops.flatMap (encode .default)) []) :
    Sys2Proof.core.run ops.length s = execAll ops { s with input := [] } := by
  induction ops generalizing s with
  | nil =>
    have hs : ({ s with input := [] } : State) = s := by rw [← show s.input = [] from hin]
    rw [hs]
    exact core_run_zero s
  | cons i ops ih =>
    obtain ⟨hw, hk⟩ := hops i (List.mem_cons_self ..)
    rw [List.flatMap_cons, chunkLeft_eq, if_neg (by simp [encode_ne_nil])] at hin
    rw [List.length_cons, core_run_succ, step_encoded hw hk hin, exec_input, execAll, exec_input i s []]
    cases exec i s with
    | next t => exact ih (fun j hj => hops j (List.mem_cons_of_mem i hj)) rfl
    | fault e => rfl
    | refused e => rfl

/-- Settles O8: each step takes one encoded operation off the chunk. -/
theorem requestStreamRunsInOrder : Obligations.RequestStreamRunsInOrder := by
  intro ops s hops hin hne
  refine run_requests hops (hin.trans ?_)
  obtain ⟨i, ops, rfl⟩ := List.exists_cons_of_ne_nil hne
  rw [List.flatMap_cons, chunkLeft_eq, if_neg (by simp [encode_ne_nil])]

/-! ### A chunk of received bytes -/

/-- A row of received bytes is one DEC_BYTE per byte (R30, R54, R55, R150). -/
theorem execAt_wire_row {i : Instr} (hk : i.kind = .wireByte ∨ i.kind = .wirePair ∨ i.kind = .frameType) (s : State) :
    execAt p i s = execAllAt p (feed (encode p i)) s := by
  have hpair : ∀ b0 b1, consumePair p b0 b1 s = execAllAt p (feed [b0, b1]) s := fun b0 b1 => by
    rw [execAllAt_feed_cons, funext (execAllAt_feed_singleton b1), consumePair]
  cases i with
  | sof | eof | esc | data | typeStatus | typeTime | typeCall | typeNotify | typePing | typeAck =>
    exact (execAllAt_feed_singleton _ s).symm
  | escPair7E | escPair7F | escPair7D => exact hpair _ _
  | _ => simp [Instr.kind] at hk

/-- What the port reads off received bytes is a row of theirs. -/
theorem decodeWire_ok {atType : Bool} {bytes rest : List Byte} {i : Instr}
    (h : decodeWire p atType bytes = .ok i rest) :
    (i.kind = .wireByte ∨ i.kind = .wirePair ∨ i.kind = .frameType) ∧ bytes = encode p i ++ rest := by
  unfold decodeWire at h
  split at h
  · next hd =>
    cases h
    obtain ⟨-, hk, hb⟩ := decodeWirePair_ok hd
    exact ⟨.inr (.inl hk), hb⟩
  · split at h
    · split at h
      · next hd =>
        cases h
        obtain ⟨-, hk, hb⟩ := decodeFrameType_ok (p := p) hd
        exact ⟨.inr (.inr hk), hb⟩
      · obtain ⟨-, hk, hb⟩ := decodeWireByte_ok h
        exact ⟨.inl hk, hb⟩
    · obtain ⟨-, hk, hb⟩ := decodeWireByte_ok h
      exact ⟨.inl hk, hb⟩

theorem decodeWire_nil (p : Config) (atType : Bool) : decodeWire p atType [] = .rejected .noBytes := by
  cases atType <;> rfl

/-- Some row stands at the front of any received bytes: a byte is a row by itself. -/
theorem decodeWire_cons (atType : Bool) (b : Byte) (bytes : List Byte) :
    ∃ i rest, decodeWire p atType (b :: bytes) = .ok i rest := by
  unfold decodeWire
  split
  · exact ⟨_, _, rfl⟩
  · split
    · split <;> exact ⟨_, _, rfl⟩
    · exact ⟨_, _, rfl⟩

/-! ### Completion (R180) -/

/-- With the buffer within its capacity an instruction completes, and leaves it so. -/
theorem exec_completes (i : Instr) {s : State} (h : s.AccOk .default) : ∃ t, exec i s = .next t ∧ t.AccOk .default := by
  obtain ⟨u, rs, -, -, hexec⟩ := exec_ok i h
  exact ⟨_, hexec s (SameUnit.refl s _), exec_accOk h (hexec s (SameUnit.refl s _))⟩

/-- Settles O7: so says `exec_ok`. -/
theorem everyOperationCompletes : Obligations.EveryOperationCompletes := fun i _ h => exec_completes i h

/-- The instruction answers the same whatever is pending. -/
theorem exec_without_input {i : Instr} {s t : State} (h : exec i s = .next t) :
    exec i { s with input := [] } = .next { t with input := [] } := by
  rw [exec_input, h]

/-- What is left of a chunk of received bytes runs, in some number of steps, as one DEC_BYTE per byte. -/
theorem run_wire {bytes : List Byte} {s : State} (hacc : s.AccOk .default) (hin : s.input = chunkLeft .wire bytes []) :
    ∃ n t, Sys2Proof.core.run n s = .next t ∧ execAll (feed bytes) { s with input := [] } = .next t := by
  induction hlen : bytes.length using Nat.strong_induction_on generalizing bytes s with
  | _ len ih =>
  cases bytes with
  | nil => exact ⟨0, s, core_run_zero s, by rw [← show s.input = [] from hin]; rfl⟩
  | cons b bytes =>
    obtain ⟨i, rest, hd⟩ := decodeWire_cons (p := .default) s.atTypeByte b bytes
    obtain ⟨hk, hbytes⟩ := decodeWire_ok hd
    have hstep := step_wire (later := []) hin hd
    obtain ⟨u, hexec, hacc'⟩ := exec_completes i (s := { s with input := chunkLeft .wire rest [] }) hacc
    have hshort : rest.length < len := by
      have hpos := List.length_pos_iff.mpr (encode_ne_nil (p := .default) i)
      rw [← hlen, hbytes, List.length_append]
      omega
    obtain ⟨n, t, hrun, hfeed⟩ := ih _ hshort hacc' (onlyUnit_of_exec hexec).2 rfl
    refine ⟨n + 1, t, ?_, ?_⟩
    · rw [core_run_succ, hstep, hexec]
      exact hrun
    · have hrow : execAll (feed (encode .default i)) { s with input := [] } = .next { u with input := [] } := by
        rw [← execAllAt_default, ← execAt_wire_row hk, execAt_default]
        exact exec_without_input (s := { s with input := chunkLeft .wire rest [] }) hexec
      rw [hbytes, execAll_feed_append, hrow]
      exact hfeed

/-- Settles O9: each step runs the row at the front of the chunk, which is one DEC_BYTE per byte of the row; an empty
chunk is dropped. -/
theorem wireChunkIsFeed : Obligations.WireChunkIsFeed := by
  intro bytes s hacc hin
  cases bytes with
  | nil =>
    have hfetch : fetch .default s = .done { s with input := [] } := by
      rw [fetch_of_wire hin, fetchWire, decodeWire_nil]
    refine ⟨1, { s with input := [] }, ?_, rfl⟩
    rw [core_run_succ, step_of_fetch_done hfetch]
    exact core_run_zero _
  | cons b bytes => exact run_wire hacc hin

/-! ### Units (R22, R46) -/

/-- Settles O51: what an instruction does is a new content for its unit and responses. -/
theorem instructionsWriteOnlyTheirUnit : Obligations.InstructionsWriteOnlyTheirUnit := by
  intro i s t h
  refine ⟨onlyUnit_of_exec h, ?_⟩
  obtain ⟨u, rs, -, rfl⟩ := exec_next h
  exact ⟨rs, by simp⟩

/-- Settles O52: each instruction computes its unit's contents and its responses from its own unit, which the other
leaves alone. -/
theorem differentUnitsCommute : Obligations.DifferentUnitsCommute := by
  intro i j s hij hacc
  obtain ⟨u, ri, hu, -, hi⟩ := exec_ok i hacc
  obtain ⟨v, rj, hv, -, hj⟩ := exec_ok j hacc
  have huv : u.unit ≠ v.unit := by rwa [hu, hv]
  have hi' : s.SameUnit ((v.apply s).addResponses rj) i.unit :=
    SameUnit.addResponses_right rj (SameUnit.apply_right v (by rwa [hv]) (SameUnit.refl s _))
  have hj' : s.SameUnit ((u.apply s).addResponses ri) j.unit :=
    SameUnit.addResponses_right ri (SameUnit.apply_right u (by rw [hu]; exact hij.symm) (SameUnit.refl s _))
  have hboth : execAll [i, j] s = .next ((v.apply (u.apply s)).addResponses (ri ++ rj)) := by
    simp only [execAll, hi s (SameUnit.refl s _), andThen_next, hj _ hj', apply_addResponses, addResponses_addResponses]
  have hboth' : execAll [j, i] s = .next ((v.apply (u.apply s)).addResponses (rj ++ ri)) := by
    simp only [execAll, hj s (SameUnit.refl s _), andThen_next, hi _ hi', apply_addResponses, addResponses_addResponses,
      apply_comm huv]
  exact ⟨ri, rj, _, _, _, _, hi s (SameUnit.refl s _), by simp, hj s (SameUnit.refl s _), by simp, hboth, hboth',
    by simp, by simp, by simp, by simp⟩

/-! ### The four partial resets (R202) -/

/-- What a partial reset does to its unit. -/
def resetUpdate : Instr → UnitUpdate
  | .crcInit => .crcGenerator 0xFFFF
  | .decReset => .decoder false false []
  | .rbInit k => .ring k Memory.zeroed 0 0
  | _ => .encoder

/-- The operations of R202. -/
def partialResets : List Instr := [.crcInit, .decReset, .rbInit .normal, .rbInit .emergency]

theorem exec_partialReset {i : Instr} (hi : i ∈ partialResets) (s : State) :
    exec i s = .next (((resetUpdate i).apply s).addResponses [[]]) := by
  simp only [partialResets, List.mem_cons, List.not_mem_nil, or_false] at hi
  rcases hi with rfl | rfl | rfl | rfl
  · exact exec_crcInit s
  · exact exec_decReset s
  · exact exec_rbInit .normal s
  · exact exec_rbInit .emergency s

/-- The four are for four different units. -/
theorem resetUpdate_unit_injOn : ∀ i ∈ partialResets, ∀ j ∈ partialResets,
    i ≠ j → (resetUpdate i).unit ≠ (resetUpdate j).unit := by decide

/-- Updates do not read the responses. -/
theorem foldl_apply_addResponses (ops : List Instr) (s : State) (rs : List (List Byte)) :
    ops.foldl (fun t i => (resetUpdate i).apply t) (s.addResponses rs) =
      (ops.foldl (fun t i => (resetUpdate i).apply t) s).addResponses rs := by
  induction ops generalizing s with
  | nil => rfl
  | cons i ops ih => rw [List.foldl_cons, apply_addResponses, ih, List.foldl_cons]

/-- A list of partial resets is their updates, one after the other, and an empty response each. -/
theorem execAll_of_partialResets {ops : List Instr} (hops : ∀ i ∈ ops, i ∈ partialResets) (s : State) :
    execAll ops s = .next ((ops.foldl (fun t i => (resetUpdate i).apply t) s).addResponses
      (List.replicate ops.length [])) := by
  induction ops generalizing s with
  | nil => simp [execAll, State.addResponses]
  | cons i ops ih =>
    rw [execAll, exec_partialReset (hops i (List.mem_cons_self ..)), andThen_next,
      ih fun j hj => hops j (List.mem_cons_of_mem i hj), foldl_apply_addResponses, addResponses_addResponses]
    rfl

/-- Settles O3: updates of different units may be exchanged, so any order gives what R26's order gives. -/
theorem partialResetsInAnyOrder : Obligations.PartialResetsInAnyOrder := by
  intro ops s hperm
  have hmem : ∀ i ∈ ops, i ∈ partialResets := fun i hi => hperm.subset hi
  refine ⟨_, execAll_of_partialResets hmem s, ?_⟩
  rw [addResponses_block, hperm.foldl_eq' (fun i hi j hj t => ?_)]
  · rfl
  · by_cases hij : i = j
    · rw [hij]
    · exact (apply_comm (resetUpdate_unit_injOn i (hmem i hi) j (hmem j hj) hij) t).symm

end Sys2Proof.Machine

/-! The CRC as a function (40_crc16 R82 to R86): one CRC_BYTE per byte is the fold of `crcStep`, the step is linear over
XOR, and the CRC's own two bytes shift the register out to zero. -/

namespace Sys2Proof.Machine

variable {p : Config}

/-! ### The stream and the function (R84, R85) -/

theorem crc16_append (p : Config) (xs ys : List Byte) :
    crc16 p (xs ++ ys) = ys.foldl (crcStep p) (crc16 p xs) := List.foldl_append ..

/-- A CRC_BYTE per byte folds the register step over the bytes, with an empty response each. -/
theorem execAll_crcBytes (ys : List Byte) (s : State) :
    execAll (ys.map Instr.crcByte) s = .next
      { s with crc := ys.foldl (crcStep .default) s.crc, output := s.output ++ List.replicate ys.length [] } := by
  induction ys generalizing s with
  | nil => simp [execAll]
  | cons y ys ih =>
    rw [List.map_cons, execAll, exec_crcByte, andThen_next, ih]
    simp [UnitUpdate.apply, State.addResponses, List.replicate_succ]

/-- The register after CRC_INIT and the bytes is `crc16` of them. -/
theorem execAll_crcInit_crcBytes (xs : List Byte) (s : State) :
    execAll (.crcInit :: xs.map Instr.crcByte) s = .next
      { s with crc := crc16 .default xs, output := s.output ++ List.replicate (xs.length + 1) [] } := by
  rw [execAll, exec_crcInit, andThen_next, execAll_crcBytes]
  simp [UnitUpdate.apply, State.addResponses, List.replicate_succ, crc16]

/-- A pseudo-operation whose real operations complete answers from their responses (R66). -/
theorem runPseudo_of_execAll {o : PseudoOp} {s t : State} {rs : List (List Byte)}
    (h : execAll (expandPseudo o) s = .next t) (hout : t.output = s.output ++ rs) :
    runPseudo o s = .next (t, pseudoResponse .default rs o) := by
  have hdrop : t.output.drop s.output.length = rs := by rw [hout, List.drop_left]
  simp only [runPseudo, runPseudoAt, execAllAt_default, h, hdrop]

/-- Settles O13: the register folds the bytes as `crc16` does, and CRC16's response is the last, CRC_READ's. -/
theorem crcStreamAgreesWithFunction : Obligations.CrcStreamAgreesWithFunction := by
  intro xs ys s
  refine ⟨execAll_crcInit_crcBytes xs s, ?_, ?_, ?_⟩
  · rw [List.map_append, ← List.cons_append, execAll_append, execAll_crcInit_crcBytes, andThen_next]
  · rw [execAll_crcBytes, crc16_append]
  · have hrun : execAll (expandPseudo (.crc16 xs)) s = .next
        { s with crc := crc16 .default xs,
                 output := s.output ++ List.replicate (xs.length + 1) [] ++ [beBytes (crc16 .default xs)] } := by
      rw [expandPseudo, crcOf, List.singleton_append, execAll_append, execAll_crcInit_crcBytes, andThen_next, execAll,
        exec_crcRead]
      rfl
    have hanswer : pseudoResponse .default (List.replicate (xs.length + 1) [] ++ [beBytes (crc16 .default xs)])
        (.crc16 xs) = .crc [(crc16 .default xs).extractLsb' 8 8, (crc16 .default xs).extractLsb' 0 8] := by
      rw [pseudoResponse, List.getLastD_concat, beBytes_eq_extract]
    exact ⟨_, hanswer ▸ runPseudo_of_execAll hrun (List.append_assoc ..)⟩

/-! ### Linearity (R86) -/

/-- The polynomial goes in once, twice or not at all as the bit shifted out is 1 in one, both or neither. -/
theorem crcShift_xor (p : Config) (c d : Word16) : crcShift p (c ^^^ d) = crcShift p c ^^^ crcShift p d := by
  have htwice : p.poly ^^^ p.poly = 0 := BitVec.xor_self
  simp only [crcShift, BitVec.msb_xor, BitVec.shiftLeft_xor_distrib]
  cases c.msb <;> cases d.msb <;> simp only [Bool.xor_true, Bool.xor_false, Bool.not_true, Bool.not_false, if_true,
    if_false, Bool.false_eq_true]
  · ac_rfl
  · ac_rfl
  · calc c <<< 1 ^^^ d <<< 1
      _ = c <<< 1 ^^^ d <<< 1 ^^^ (p.poly ^^^ p.poly) := by rw [htwice]; exact BitVec.xor_zero.symm
      _ = (c <<< 1 ^^^ p.poly) ^^^ (d <<< 1 ^^^ p.poly) := by ac_rfl

theorem crcShifts_xor (p : Config) (n : Nat) (c d : Word16) :
    crcShifts p n (c ^^^ d) = crcShifts p n c ^^^ crcShifts p n d := by
  induction n generalizing c d with
  | zero => rfl
  | succ n ih => rw [crcShifts, crcShift_xor, ih, crcShifts, crcShifts]

theorem reverse_xor (a b : Byte) : (a ^^^ b).reverse = a.reverse ^^^ b.reverse := by
  ext i hi
  simp [BitVec.getElem_reverse]

theorem crcIn_xor (p : Config) (a b : Byte) : crcIn p (a ^^^ b) = crcIn p a ^^^ crcIn p b := by
  unfold crcIn
  split
  · exact reverse_xor a b
  · rfl

/-- Settles O14: taking in the byte and the eight shifts are each linear. -/
theorem crcStepIsLinear : Obligations.CrcStepIsLinear := by
  intro p c d a b
  have hin : (c ^^^ d) ^^^ ((crcIn p (a ^^^ b)).setWidth 16 <<< 8) =
      (c ^^^ ((crcIn p a).setWidth 16 <<< 8)) ^^^ (d ^^^ ((crcIn p b).setWidth 16 <<< 8)) := by
    rw [crcIn_xor, BitVec.setWidth_xor, BitVec.shiftLeft_xor_distrib]
    ac_rfl
  rw [crcStep, hin, crcShifts_xor, crcStep, crcStep]

/-! ### The CRC of a checked body (R33, R84) -/

/-- Shifts that move no 1 out of the register are left shifts. -/
theorem crcShifts_of_lt (p : Config) {n : Nat} {c : Word16} (h : c.toNat * 2 ^ n < 2 ^ 16) :
    crcShifts p n c = c <<< n := by
  induction n generalizing c with
  | zero => simp [crcShifts]
  | succ n ih =>
    have hdouble : c.toNat * 2 * 2 ^ n < 2 ^ 16 := by rwa [Nat.pow_succ', ← Nat.mul_assoc] at h
    have hlt : c.toNat * 2 < 2 ^ 16 := lt_of_le_of_lt (Nat.le_mul_of_pos_right _ (Nat.two_pow_pos n)) hdouble
    have hmsb : c.msb = false := BitVec.msb_eq_false_iff_two_mul_lt.mpr (by rwa [Nat.mul_comm])
    have hshift : (c <<< 1).toNat = c.toNat * 2 := by
      rw [BitVec.toNat_shiftLeft, Nat.shiftLeft_eq, Nat.pow_one, Nat.mod_eq_of_lt hlt]
    rw [crcShifts, crcShift, hmsb, if_neg (by decide), ih (by rwa [hshift]), ← BitVec.shiftLeft_add, Nat.add_comm]

/-- A register with its own high byte taken in holds its low byte alone. -/
theorem xor_hiByte (c : Word16) : c ^^^ ((hiByte c).setWidth 16 <<< 8) = (loByte c).setWidth 16 := by
  ext i hi
  by_cases h8 : i < 8
  · simp [hiByte, loByte, h8, BitVec.getLsbD_eq_getElem hi]
  · simp [hiByte, loByte, h8, show i - 8 < 8 by omega, show 8 + (i - 8) = i by omega, BitVec.getLsbD_eq_getElem hi]

/-- The step on a register's own high byte shifts its low byte up (R82). -/
theorem crcStep_hiByte (c : Word16) : crcStep .default c (hiByte c) = (loByte c).setWidth 16 <<< 8 := by
  have hlow : ((loByte c).setWidth 16).toNat * 2 ^ 8 < 2 ^ 16 := by
    have := (loByte c).isLt
    rw [BitVec.toNat_setWidth]
    omega
  rw [crcStep, crcIn_default, xor_hiByte, crcShifts_of_lt _ hlow]

/-- The step on the byte that stands in the high place leaves zero. -/
theorem crcStep_self (b : Byte) : crcStep .default (b.setWidth 16 <<< 8) b = 0 := by
  rw [crcStep, crcIn_default, BitVec.xor_self, crcShifts_of_lt _ (by decide)]
  rfl

/-- Settles O15: the first appended byte shifts the register's low byte up, the second cancels it. -/
theorem crcOfCheckedBodyIsZero : Obligations.CrcOfCheckedBodyIsZero := by
  intro xs
  rw [← beBytes_eq_extract, crc16_append, beBytes, List.foldl_cons, List.foldl_cons, List.foldl_nil, crcStep_hiByte,
    crcStep_self]

end Sys2Proof.Machine

/-! What an encoded frame looks like on the wire (30_encoding R56, 41_frame_encoder R91, R94): the payload's cut, the
lengths, and where markers can stand. -/

namespace Sys2Proof.Machine

variable {p : Config}

/-- Settles O18: cut to 64 bytes, both payloads are the same. -/
theorem payloadIsTruncatedSilently : Obligations.PayloadIsTruncatedSilently := by
  intro type flags seq payload more s hlen
  have hcut : truncatePayload .default (payload ++ more) = truncatePayload .default payload := by
    rw [truncatePayload, truncatePayload, List.take_append_of_le_length (by rw [hlen])]
  rw [exec_encFrame, exec_encFrame, encodeFrame, encodeFrame, encodeBody, encodeBody, coveredBytes, coveredBytes, hcut]

/-! ### Markers inside a frame (R94 f) -/

/-- A stuffed byte holds a marker only as the escape marker that opens a pair (R92). -/
theorem marker_mem_stuff (hv : p.Valid) {b x : Byte} (hx : isMarker p x = true) (hmem : x ∈ stuff p b) : x = p.esc := by
  unfold stuff at hmem
  split at hmem
  · next hb =>
    rcases List.mem_cons.mp hmem with rfl | hmem
    · rfl
    · rw [List.mem_singleton.mp hmem, masked_marker_is_no_marker hv hb] at hx
      cases hx
  · next hb => exact absurd (List.mem_singleton.mp hmem ▸ hx) hb

/-- Stuffed bytes hold neither a start nor an end marker. -/
theorem sof_eof_not_mem_stuffed (hv : p.Valid) (xs : List Byte) :
    p.sof ∉ xs.flatMap (stuff p) ∧ p.eof ∉ xs.flatMap (stuff p) := by
  obtain ⟨-, hse, hee⟩ := hv.markers_differ
  refine ⟨fun h => ?_, fun h => ?_⟩ <;> obtain ⟨b, -, hb⟩ := List.mem_flatMap.mp h
  · exact hse (marker_mem_stuff hv ((isMarker_iff p _).mpr (.inl rfl)) hb)
  · exact hee (marker_mem_stuff hv ((isMarker_iff p _).mpr (.inr (.inl rfl))) hb)

/-- In stuffed bytes an escape marker is followed by a marker XOR the mask (R54). -/
theorem esc_opens_pair (hv : p.Valid) {xs : List Byte} {n : Nat} (h : (xs.flatMap (stuff p))[n]? = some p.esc) :
    ∃ b, isMarker p b = true ∧ (xs.flatMap (stuff p))[n + 1]? = some (b ^^^ p.mask) := by
  induction xs generalizing n with
  | nil => simp at h
  | cons x xs ih =>
    rw [List.flatMap_cons] at h ⊢
    by_cases hx : isMarker p x = true
    · have hs : stuff p x = [p.esc, x ^^^ p.mask] := if_pos hx
      rw [hs] at h ⊢
      match n, h with
      | 0, _ => exact ⟨x, hx, rfl⟩
      | 1, h =>
        have hesc : x ^^^ p.mask = p.esc := Option.some.inj h
        have hno := masked_marker_is_no_marker hv hx
        rw [hesc, (isMarker_iff p p.esc).mpr (.inr (.inr rfl))] at hno
        cases hno
      | n + 2, h => exact ih h
    · rw [Bool.not_eq_true] at hx
      rw [stuff_of_not_marker hx] at h ⊢
      match n, h with
      | 0, h =>
        have hesc : x = p.esc := Option.some.inj h
        rw [hesc, (isMarker_iff p p.esc).mpr (.inr (.inr rfl))] at hx
        cases hx
      | n + 1, h => exact ih h

/-- Settles O19: the inner part is the stuffed body. -/
theorem frameHasNoInnerMarkers : Obligations.FrameHasNoInnerMarkers := by
  intro type flags seq payload s
  have hv := Config.default_valid
  obtain ⟨hsof, heof⟩ := sof_eof_not_mem_stuffed hv (encodeBody .default type flags seq payload)
  refine ⟨_, _, exec_encFrame type flags seq payload s, rfl, hsof, heof, fun n hn => ?_⟩
  obtain ⟨b, hb, hnext⟩ := esc_opens_pair hv hn
  refine ⟨_, hnext, ?_⟩
  rcases (isMarker_default_iff b).mp hb with rfl | rfl | rfl <;> decide

/-! ### Lengths (R56) -/

/-- A LEN of at most 64 is below the markers. -/
theorem byteOf_not_marker {n : Nat} (h : n ≤ 64) : isMarker .default (byteOf n) = false := by
  have hn : (byteOf n).toNat = n := toNat_byteOf (by omega)
  refine (isMarker_default_false_iff _).mpr ⟨?_, ?_, ?_⟩ <;>
    (intro hm; rw [← hn, hm] at h; exact absurd h (by decide))

/-- Of the body, the version byte and LEN are never stuffed. -/
theorem stuffed_body_length_le (type flags seq : Byte) (payload : List Byte) :
    ((encodeBody .default type flags seq payload).flatMap (stuff .default)).length + 2 ≤
      2 * (encodeBody .default type flags seq payload).length := by
  have hver : stuff .default (0x02 : Byte) = [0x02] := rfl
  have hlen := stuff_of_not_marker (byteOf_not_marker (truncatePayload_length_le .default payload))
  have hfields := (flatMap_stuff_length (p := .default) [type, flags, seq]).2
  have hrest := (flatMap_stuff_length (p := .default) (truncatePayload .default payload ++
    beBytes (crc16 .default (coveredBytes .default type flags seq payload)))).2
  have hbody : encodeBody .default type flags seq payload =
      [0x02] ++ ([type, flags, seq] ++ ([byteOf (truncatePayload .default payload).length] ++
        (truncatePayload .default payload ++
          beBytes (crc16 .default (coveredBytes .default type flags seq payload))))) := by
    simp [encodeBody, coveredBytes]
  rw [hbody, List.flatMap_append, List.flatMap_append, List.flatMap_append, List.flatMap_singleton,
    List.flatMap_singleton, hver, hlen]
  simp only [List.length_append, List.length_cons, List.length_nil] at *
  omega

/-- Settles O20: five header bytes, at most 64 of payload, and the CRC; stuffing doubles all but two at most. -/
theorem frameLengthBounds : Obligations.FrameLengthBounds := by
  intro type flags seq payload
  have hbody := encodeBody_length .default type flags seq payload
  have hcut := truncatePayload_length_le .default payload
  have hframe := encodeFrame_length .default type flags seq payload
  have hlow := (flatMap_stuff_length (p := .default) (encodeBody .default type flags seq payload)).1
  have hhigh := stuffed_body_length_le type flags seq payload
  change _ ≤ 64 at hcut
  omega

end Sys2Proof.Machine

/-! The decoder's rows and runs (42_stream_decoder R111, R128; 30_encoding R54, R58, R63, R66; 60_exceptions R185): the
rows that are received bytes by the decoder's state, the rows that are its answers, and what a run of DEC_BYTEs answers,
which is a matter of the decoder's own state and the bytes. -/

namespace Sys2Proof.Machine

variable {p : Config}

/-! ### A received byte by the decoder's state, as the next state (R103, R105, R109) -/

theorem consume_out_nonmarker {b : Byte} {s : State} (hin : s.decInFrame = false) (hb : isMarker p b = false) :
    consume p b s = .next (s.addResponses [[0x00]]) := by
  obtain ⟨hsof, -⟩ := (isMarker_false_iff p b).mp hb
  exact consume_out_other hin hsof

theorem consume_escaped (b : Byte) {s : State} (hacc : s.AccOk p) (hin : s.decInFrame = true)
    (he : s.decEscaping = true) :
    consume p b s = .next (afterAppend p (b ^^^ p.mask) { s with decEscaping := false }) := by
  rw [consume_escaping hin he, inEscaping, appendByte_eq _ (by exact hacc)]

theorem consume_stored {b : Byte} {s : State} (hacc : s.AccOk p) (hin : s.decInFrame = true)
    (he : s.decEscaping = false) (hb : isMarker p b = false) : consume p b s = .next (afterAppend p b s) := by
  rw [consume_data hin he hb, inData, appendByte_eq b hacc]

/-- The append opens no escape (R110). -/
theorem afterAppend_decEscaping (v : Byte) {s : State} (he : s.decEscaping = false) :
    (afterAppend p v s).decEscaping = false := by
  unfold afterAppend
  split
  · exact he
  · rfl

/-- Settles O29: R111's cells are R102's cases, one per byte class and state. -/
theorem transitionTable : Obligations.TransitionTable := by
  intro s hacc
  have hv := Config.default_valid
  obtain ⟨hsofeof, hsofesc, -⟩ := hv.markers_differ
  refine ⟨fun hin => ⟨?_, ?_, ?_, fun b hb => ?_⟩, fun hin he => ⟨?_, ?_, ?_, fun b hb => ?_⟩,
    fun hin he => ⟨?_, ?_, ?_, fun b _ => ?_⟩, exec_decReset s⟩
  · exact consume_sof_out hin
  · exact consume_out_other hin hsofesc.symm
  · exact consume_out_other hin hsofeof.symm
  · exact consume_out_nonmarker hin hb
  · exact consume_sof hv hin he
  · exact consume_esc hin he
  · refine (endMarkerParsesTheBody s hin he hacc).trans ?_
    rw [he]
  · exact consume_stored hacc hin he hb
  all_goals exact consume_escaped _ hacc hin he

/-- The byte of a TYPE row (R150), which is no marker. -/
theorem exec_type_row {i : Instr} {b : Byte}
    (h : (i, b) ∈ [(Instr.typeStatus, (0x01 : Byte)), (Instr.typeTime, 0x02), (Instr.typeCall, 0x03),
      (Instr.typeNotify, 0x04), (Instr.typePing, 0x05), (Instr.typeAck, 0x10)]) :
    isMarker .default b = false ∧ exec i = consume .default b := by
  simp only [List.mem_cons, Prod.mk.injEq, List.not_mem_nil, or_false] at h
  rcases h with ⟨rfl, rfl⟩ | ⟨rfl, rfl⟩ | ⟨rfl, rfl⟩ | ⟨rfl, rfl⟩ | ⟨rfl, rfl⟩ | ⟨rfl, rfl⟩ <;> exact ⟨rfl, rfl⟩

/-- Settles O31: a TYPE value is a byte that is no marker, and is received as one. -/
theorem typeByteIsCarriedUnchanged : Obligations.TypeByteIsCarriedUnchanged := by
  intro i b s hacc hi
  obtain ⟨hb, hexec⟩ := exec_type_row hi
  rw [hexec]
  exact ⟨fun hin => consume_out_nonmarker hin hb, fun hin he => consume_stored hacc hin he hb,
    fun hin he => consume_escaped b hacc hin he⟩

/-- The wire bytes of a pair row (R54). -/
theorem exec_pair_row {i : Instr} {v : Byte}
    (h : (i, v) ∈ [(Instr.escPair7E, (0x7E : Byte)), (Instr.escPair7F, 0x7F), (Instr.escPair7D, 0x7D)]) :
    isMarker .default v = true ∧ exec i = consumePair .default 0x7D (v ^^^ 0x20) := by
  simp only [List.mem_cons, Prod.mk.injEq, List.not_mem_nil, or_false] at h
  rcases h with ⟨rfl, rfl⟩ | ⟨rfl, rfl⟩ | ⟨rfl, rfl⟩ <;> exact ⟨rfl, rfl⟩

/-- Settles O30: the second byte of a pair is no marker, so what it does is a matter of what the first left. -/
theorem escapePairStandsForOneByte : Obligations.EscapePairStandsForOneByte := by
  intro i v s hacc hi
  obtain ⟨hv, hexec⟩ := exec_pair_row hi
  have hx : isMarker .default (v ^^^ 0x20) = false := masked_marker_is_no_marker Config.default_valid hv
  rw [hexec, consumePair]
  refine ⟨fun hin => ?_, fun hin he => ?_, fun hin he => ?_⟩
  · rw [consume_out_other hin (by decide), andThen_next, consume_out_nonmarker (by exact hin) hx,
      addResponses_addResponses]
    rfl
  · have hesc : consume .default 0x7D s = inEsc s := consume_esc hin he
    have hback : v ^^^ 0x20 ^^^ Config.default.mask = v := mask_mask .default v
    rw [hesc, inEsc, andThen_next, consume_escaped _ (by exact hacc) (by exact hin) rfl, hback, ← he]
    rfl
  · refine ⟨_, rfl, ?_⟩
    have hfirst : consume .default 0x7D s = .next (afterAppend .default 0x5D { s with decEscaping := false }) :=
      consume_escaped 0x7D hacc hin he
    have hacc' := exec_accOk (i := .decByte 0x7D) hacc hfirst
    rw [hfirst, andThen_next]
    split
    · next hin' => exact consume_stored hacc' hin' (afterAppend_decEscaping 0x5D rfl) hx
    · next hin' => exact consume_out_nonmarker (Bool.not_eq_true _ ▸ hin') hx

/-! ### The decoder's answers (R63, R185) -/

/-- A reason's row and EV_BAD of the reason are the same report. -/
theorem exec_reasonRow (r : BadReason) (s : State) :
    exec (reasonRow r) s = .next (takeReport r s) ∧ exec (.evBad r) s = .next (takeReport r s) := by
  cases r <;> exact ⟨rfl, rfl⟩

/-- Settles O32: each row is a report, the event NONE or a delivered frame. -/
theorem answersAndReports : Obligations.AnswersAndReports := by
  intro s
  refine ⟨fun i code hi => ?_, rfl, fun f => ?_⟩
  · simp only [List.mem_cons, Prod.mk.injEq, List.not_mem_nil, or_false] at hi
    rcases hi with ⟨rfl, rfl⟩ | ⟨rfl, rfl⟩ | ⟨rfl, rfl⟩ | ⟨rfl, rfl⟩ | ⟨rfl, rfl⟩ | ⟨rfl, rfl⟩ | ⟨rfl, rfl⟩ |
      ⟨rfl, rfl⟩ | ⟨rfl, rfl⟩ | ⟨rfl, rfl⟩
    · exact (exec_reasonRow .tooShort s).1
    · exact (exec_reasonRow .badVersion s).1
    · exact (exec_reasonRow .lenMismatch s).1
    · exact (exec_reasonRow .crcMismatch s).1
    · exact (exec_reasonRow .overflow s).1
    all_goals exact (exec_reasonRow _ s).2
  · have hexec : exec (.evFrame f) s = .next ((leaveFrame s).addResponses [0x01 :: frameBody f]) := rfl
    rw [hexec, frameBody, beBytes_eq_extract]
    rfl

/-! ### Runs of DEC_BYTEs (R66, R128) -/

/-- What a run of received bytes leaves in the decoder and answers is decided by the decoder's state and the bytes
(R128 g). -/
theorem feed_local (bytes : List Byte) {s : State} (hacc : s.AccOk p) :
    ∃ (f e : Bool) (buf : List Byte) (rs : List (List Byte)), ∀ s', s.SameUnit s' .decoder →
      execAllAt p (feed bytes) s' = .next (((UnitUpdate.decoder f e buf).apply s').addResponses rs) := by
  induction bytes generalizing s with
  | nil =>
    refine ⟨s.decInFrame, s.decEscaping, s.decBuf, [], fun s' ⟨hin, he, hbuf⟩ => ?_⟩
    rw [hin, he, hbuf]
    simp [feed, execAllAt, UnitUpdate.apply, State.addResponses]
  | cons b bytes ih =>
    obtain ⟨u, r, hu, hlen, hfirst⟩ := execAt_ok (.decByte b) hacc
    cases u with
    | decoder f e buf =>
      obtain ⟨f', e', buf', rs, hrest⟩ := ih (s := (UnitUpdate.decoder f e buf).apply s) (hlen f e buf rfl)
      refine ⟨f', e', buf', r ++ rs, fun s' hs' => ?_⟩
      have hb : consume p b s' = _ := hfirst s' hs'
      rw [execAllAt_feed_cons, hb, andThen_next, hrest (((UnitUpdate.decoder f e buf).apply s').addResponses r)
        ⟨rfl, rfl, rfl⟩, apply_addResponses, addResponses_addResponses]
      rfl
    | crcGenerator | encoder | ring => cases hu

/-- FEED's list, read off the responses (R66). -/
theorem mem_feedEvents_responses {es : List Event} (hw : ∀ e ∈ es, e.wellFormed p) {j : Nat} {e : Event} :
    (j, e) ∈ feedEvents p (es.map eventBytes) ↔ e ≠ .none ∧ (es.map eventBytes)[j]? = some (eventBytes e) := by
  rw [mem_feedEvents_map hw, List.getElem?_map]
  refine and_congr_right fun _ => ⟨fun h => by rw [h]; rfl, fun h => ?_⟩
  obtain ⟨e', he', hb⟩ := Option.map_eq_some_iff.mp h
  rw [he', eventBytes_injective hb]

/-- The events among the responses of a completed FEED. -/
theorem mem_feedEvents_of_feed {bytes : List Byte} {s t : State} {rs : List (List Byte)}
    (hf : p.Fits) (h : execAllAt p (feed bytes) s = .next t) (hout : t.output = s.output ++ rs) {j : Nat} {e : Event} :
    (j, e) ∈ feedEvents p rs ↔ e ≠ .none ∧ rs[j]? = some (eventBytes e) := by
  obtain ⟨es, -, hw, hes⟩ := feed_events hf h
  obtain rfl := List.append_cancel_left (hout.symm.trans hes)
  exact mem_feedEvents_responses hw

/-- Settles O36: after DEC_RESET both decoders hold the same, so they run alike. -/
theorem eventsDependOnBytesAlone : Obligations.EventsDependOnBytesAlone := by
  intro bytes s s'
  obtain ⟨f, e, buf, rs, hfeed⟩ := feed_local (p := .default) bytes (s := leaveFrame s) (Nat.zero_le _)
  have hrun : ∀ u : State, execAll (expandPseudo (.decode bytes)) u =
      .next (((UnitUpdate.decoder f e buf).apply u).addResponses ([] :: rs)) := fun u => by
    rw [expandPseudo, decodeStream, execAll, exec_decReset, andThen_next, ← execAllAt_default,
      hfeed (((UnitUpdate.decoder false false []).apply u).addResponses [[]]) ⟨rfl, rfl, rfl⟩, apply_addResponses,
      addResponses_addResponses]
    rfl
  have hout : ∀ u : State, (((UnitUpdate.decoder f e buf).apply u).addResponses ([] :: rs)).output =
      u.output ++ [] :: rs := fun _ => rfl
  refine ⟨[] :: rs, _, _, feedEvents .default rs, runPseudo_of_execAll (hrun s) (hout s),
    runPseudo_of_execAll (hrun s') (hout s'), fun j e => ?_, hrun s, hrun s', hout s, hout s', rfl, rfl, rfl⟩
  exact mem_feedEvents_of_feed Config.default_fits (hfeed _ (SameUnit.refl _ _)) rfl

/-- FRAME responses come from end markers only (R128 f). -/
theorem feed_frames_le (hv : p.Valid) {bytes : List Byte} {s t : State} (h : execAllAt p (feed bytes) s = .next t) :
    ∃ rs, t.output = s.output ++ rs ∧ rs.length = bytes.length ∧
      (frameResponses rs).length ≤ bytes.count p.eof := by
  induction bytes generalizing s with
  | nil => cases h; exact ⟨[], by simp, rfl, Nat.le_refl _⟩
  | cons b bytes ih =>
    obtain ⟨u, hfirst, hrest⟩ := andThen_eq_next h
    obtain ⟨e, hout, hcase⟩ := consume_answer hv hfirst
    obtain ⟨rs, hout', hlen, hframes⟩ := ih hrest
    refine ⟨eventBytes e :: rs, by simp [hout', hout], by simp [hlen], ?_⟩
    rcases hcase with he | ⟨rfl, -⟩
    · have hnone : frameResponses (eventBytes e :: rs) = frameResponses rs := by rcases he with rfl | rfl <;> rfl
      rw [hnone]
      exact hframes.trans List.count_le_count_cons
    · have hone : (frameResponses (eventBytes e :: rs)).length ≤ (frameResponses rs).length + 1 := by
        rw [frameResponses, List.filter_cons]
        split
        · exact Nat.le_refl _
        · exact Nat.le_succ _
      rw [List.count_cons_self]
      omega

/-- Settles O37: the run completes with one event per byte, and FEED's list is read off the responses. -/
theorem noMoreFramesThanEndMarkers : Obligations.NoMoreFramesThanEndMarkers := by
  intro bytes s hacc
  obtain ⟨f, e, buf, rs', hfeed⟩ := feed_local (p := .default) bytes hacc
  have hrun := hfeed s (SameUnit.refl s _)
  obtain ⟨rs, hout, hlen, hframes⟩ := feed_frames_le Config.default_valid hrun
  have hexec := hrun
  rw [execAllAt_default] at hexec
  exact ⟨rs, _, feedEvents .default rs, hexec, hout, hlen, hframes, runPseudo_of_execAll hexec hout,
    feedEvents_sorted rs, fun j e => mem_feedEvents_of_feed Config.default_fits hrun hout⟩

end Sys2Proof.Machine

/-! Runs of ring-buffer operations (43_ring_buffer R132 to R139; 20_memory R38): reads repeat, a full turn of RB_ADV is
no move, and after any number of additions the last entries stand in their slots and the enabled slots are those
reached, from which an entry added is read back. -/

namespace Sys2Proof.Machine

variable {p : Config}

/-! ### Reads (R38, R90) -/

/-- An instruction that gives the same response whatever was answered before gives it twice. -/
theorem execAll_twice {i : Instr} {s : State} {r : List Byte}
    (h : ∀ rs, exec i (s.addResponses rs) = .next ((s.addResponses rs).addResponses [r])) :
    exec i s = .next { s with output := s.output ++ [r] } ∧
      execAll [i, i] s = .next { s with output := s.output ++ [r, r] } := by
  have h0 : exec i s = .next (s.addResponses [r]) := by simpa [State.addResponses] using h []
  refine ⟨h0, ?_⟩
  rw [execAll, h0, andThen_next, execAll, h, andThen_next, addResponses_addResponses]
  rfl

/-- Settles O47: each is a response read off contents that it does not write. -/
theorem readsHaveNoSideEffect : Obligations.ReadsHaveNoSideEffect := by
  intro i s hi
  rcases hi with rfl | ⟨b, rfl⟩ | ⟨type, flags, seq, payload, rfl⟩ | ⟨k, rfl⟩ | ⟨k, rfl⟩
  · exact ⟨beBytes s.crc, execAll_twice fun rs => exec_crcRead (s.addResponses rs)⟩
  · exact ⟨_, execAll_twice fun rs => exec_stuff b (s.addResponses rs)⟩
  · exact ⟨_, execAll_twice fun rs => exec_encFrame type flags seq payload (s.addResponses rs)⟩
  · refine ⟨[byteOf (enabledCount .default k s)], execAll_twice fun rs => ?_⟩
    cases k <;> exact exec_rbCount _ (s.addResponses rs)
  · refine ⟨s.slotBytes .default k (clamp .default k (s.dCursor k)), execAll_twice fun rs => ?_⟩
    cases k <;> exact exec_rbRead _ (s.addResponses rs)

/-- The flags are read off the slots alone. -/
theorem slotEnabled_congr {k : MsgClass} {s t : State} (h : t.slots k = s.slots k) (j : Nat) :
    t.slotEnabled p k j = s.slotEnabled p k j := by
  rw [State.slotEnabled, h, State.slotEnabled]

/-- An enabled slot under the cursor is found at once (R134). -/
theorem findSlot_here {k : MsgClass} {j : Nat} {s : State} (hj : j < capacity p k)
    (hen : s.slotEnabled p k j = true) : findSlot p k j s = some j := by
  have hmod : (j + 0) % capacity p k = j := Nat.mod_eq_of_lt hj
  have := findSlot_first (d0 := j) (i := 0) (Nat.zero_lt_of_lt hj) (hmod.symm ▸ hen) nofun
  rwa [hmod] at this

theorem setD_setD (s : State) (k : MsgClass) (m n : Nat) : (s.setD k m).setD k n = s.setD k n := by cases k <;> rfl

theorem setD_addResponses (s : State) (k : MsgClass) (n : Nat) (rs : List (List Byte)) :
    (s.addResponses rs).setD k n = (s.setD k n).addResponses rs := by cases k <;> rfl

/-- Settles O41: after the first, the cursor is on an enabled slot, or in range with no slot enabled; the second leaves
it there. -/
theorem rbFindIsIdempotent : Obligations.RbFindIsIdempotent := by
  intro k s
  have hd := clamp_lt Config.default_fits k (s.dCursor k)
  cases hfind : findSlot .default k (clamp .default k (s.dCursor k)) s with
  | some j =>
    obtain ⟨hj, hen⟩ := findSlot_some Config.default_fits hfind
    obtain ⟨hslots, -, hcur, hout⟩ := setD_addResponses_ring s hj [[0x01, byteOf j]]
    refine ⟨_, _, exec_rbFind_of_some hfind, hout, (exec_rbFind_of_some (j := j) ?_).trans ?_⟩
    · rw [hcur, clamp_of_lt hj, findSlot_here hj ((slotEnabled_congr hslots j).trans hen)]
    · rw [setD_addResponses, setD_setD]; rfl
  | none =>
    obtain ⟨hslots, -, hcur, hout⟩ := setD_addResponses_ring s hd [[0x00, byteOf (clamp .default k (s.dCursor k))]]
    refine ⟨_, _, exec_rbFind_of_none hfind, hout, (exec_rbFind_of_none ?_).trans ?_⟩
    · rw [hcur, clamp_of_lt hd, findSlot_none_iff hd]
      exact fun j hj => (slotEnabled_congr hslots j).trans ((findSlot_none_iff hd).mp hfind j hj)
    · rw [hcur, clamp_of_lt hd, setD_addResponses, setD_setD]; rfl

/-! ### A full turn (R135) -/

/-- After `n` RB_ADV an in-range cursor has moved on by `n`, wrapping, and nothing else of the block has changed. -/
theorem execAll_rbAdv (n : Nat) {k : MsgClass} {s : State} (hd : s.dCursor k < capacity .default k) :
    execAll (List.replicate n (.rbAdv k)) s =
      .next ((s.setD k ((s.dCursor k + n) % capacity .default k)).addResponses (List.replicate n [])) := by
  induction n generalizing s with
  | zero =>
    rw [Nat.add_zero, Nat.mod_eq_of_lt hd, State.setD_self]
    simp [execAll, State.addResponses]
  | succ n ih =>
    have hnext := nextCursor_lt Config.default_fits k (s.dCursor k)
    obtain ⟨-, -, hcur, -⟩ := setD_addResponses_ring s hnext [[]]
    rw [List.replicate_succ, execAll, exec_rbAdv, andThen_next, clamp_of_lt hd, ih (hcur.symm ▸ hnext), hcur,
      setD_addResponses, setD_setD, addResponses_addResponses, nextCursor, Nat.mod_add_mod, Nat.add_assoc,
      Nat.add_comm 1 n]
    rfl

/-- Settles O43: N moves on from a cursor below N wrap to it. -/
theorem rbAdvCycles : Obligations.RbAdvCycles := by
  intro k s hd
  refine ⟨_, execAll_rbAdv _ hd, ?_⟩
  rw [addResponses_block, Nat.add_mod_right, Nat.mod_eq_of_lt hd, State.setD_self]

/-! ### Lapping (R139) -/

/-- RB_ADD of a full content: the slot under the write cursor, and only it, is the entry's (R133). -/
theorem slotBytes_write (hf : p.Fits) {k : MsgClass} {s t : State} {w : Nat} {content : List Byte}
    (ht : t.slots k = (s.slots k).writeBytes (slotAddr p w 0) (slotImage p content)) (j : Nat) :
    t.slotBytes p k j = if j = w then slotImage p content else s.slotBytes p k j := by
  have hread : ∀ i, i < p.slotBytes → (t.slots k).read (slotAddr p j i) =
      if j = w then (slotImage p content).getD i 0x00 else (s.slots k).read (slotAddr p j i) := fun i hi => by
    rw [ht, read_slotAddr_write hf _ _ _ _ _ hi]
  split
  · next hj => exact slotBytes_eq (slotImage_length hf content) fun i hi => (hread i hi).trans (if_pos hj)
  · next hj =>
    refine slotBytes_eq (slotBytes_length s k j) fun i hi => ((hread i hi).trans (if_neg hj)).trans ?_
    rw [List.getD_eq_getElem?_getD, slotBytes_getElem? s k j i hi]
    rfl

theorem slotEnabled_write (hf : p.Fits) {k : MsgClass} {s t : State} {w : Nat} {content : List Byte}
    (ht : t.slots k = (s.slots k).writeBytes (slotAddr p w 0) (slotImage p content)) (j : Nat) :
    t.slotEnabled p k j = true ↔ j = w ∨ s.slotEnabled p k j = true := by
  have hread := read_slotAddr_write hf (s.slots k) w j 0 content (by have := hf.slot_ge; omega)
  obtain ⟨hflag, -⟩ := slotImage_getD p content
  rw [State.slotEnabled, State.slotEnabled, ht, hread]
  by_cases hj : j = w
  · rw [if_pos hj, hflag]
    exact iff_of_true (bne_iff_ne.mpr hf.enabled) (.inl hj)
  · rw [if_neg hj]
    simp [hj]

/-- What a ring holds after `contents` were added to it emptied. -/
structure Lapped (p : Config) (k : MsgClass) (contents : List (List Byte)) (t : State) : Prop where
  w_eq : t.wCursor k = contents.length % capacity p k
  d_eq : t.dCursor k = 0
  /-- The last `N` entries stand in their slots. -/
  recent : ∀ i c, contents[i]? = some c → contents.length ≤ i + capacity p k →
    t.slotBytes p k (i % capacity p k) = slotImage p c
  /-- The slots not yet reached are empty. -/
  unreached : ∀ j, contents.length ≤ j → j < capacity p k → t.slotBytes p k j = List.replicate p.slotBytes 0x00
  /-- The slots reached are the enabled ones. -/
  enabled_iff : ∀ j, j < capacity p k → (t.slotEnabled p k j = true ↔ j < contents.length)

/-- A ring just emptied (R132). -/
theorem lapped_nil {k : MsgClass} {t : State} (hslots : t.slots k = Memory.zeroed)
    (hw : t.wCursor k = 0) (hd : t.dCursor k = 0) : Lapped p k [] t where
  w_eq := hw.trans (Nat.zero_mod _).symm
  d_eq := hd
  recent := nofun
  unreached := fun j _ _ => slotBytes_eq (List.length_replicate ..) fun i hi => by
    rw [hslots, read_zeroed, List.getD_eq_getElem?_getD, List.getElem?_replicate_of_lt hi]; rfl
  enabled_iff := fun j _ => by simp [State.slotEnabled, hslots, read_zeroed, isEnabled]

/-- One entry more: it goes to the slot after the last entry's, over the oldest if all slots are reached. -/
theorem Lapped.add (hf : p.Fits) {k : MsgClass} {contents : List (List Byte)} {content : List Byte} {s t : State}
    (hs : Lapped p k contents s)
    (hslots : t.slots k =
      (s.slots k).writeBytes (slotAddr p (clamp p k (s.wCursor k)) 0) (slotImage p content))
    (hw : t.wCursor k = nextCursor p k (clamp p k (s.wCursor k))) (hd : t.dCursor k = s.dCursor k) :
    Lapped p k (contents ++ [content]) t := by
  obtain ⟨hw0, hd0, hrecent, hunreached, hen⟩ := hs
  have hN := capacity_pos hf k
  have hmod : contents.length % capacity p k < capacity p k := Nat.mod_lt _ hN
  rw [hw0, clamp_of_lt hmod] at hslots hw
  have hbytes := slotBytes_write hf hslots
  refine ⟨?_, hd.trans hd0, fun i c hi hle => ?_, fun j hle hj => ?_, fun j hj => ?_⟩
  · rw [hw, nextCursor, Nat.mod_add_mod, List.length_append]; rfl
  · rw [List.length_append, List.length_singleton] at hle
    by_cases hlt : i < contents.length
    · rw [List.getElem?_append_left hlt] at hi
      have hne : i % capacity p k ≠ contents.length % capacity p k := fun h => by
        have hzero := Nat.sub_mod_eq_zero_of_mod_eq h.symm
        rw [Nat.mod_eq_of_lt (by omega)] at hzero
        omega
      rw [hbytes, if_neg hne, hrecent i c hi (by omega)]
    · obtain ⟨hlen, -⟩ := List.getElem?_eq_some_iff.mp hi
      rw [List.length_append, List.length_singleton] at hlen
      obtain rfl : i = contents.length := by omega
      rw [List.getElem?_concat_length] at hi
      rw [hbytes, if_pos rfl, Option.some.inj hi]
  · rw [List.length_append, List.length_singleton] at hle
    have hne : j ≠ contents.length % capacity p k := by rw [Nat.mod_eq_of_lt (by omega)]; omega
    rw [hbytes, if_neg hne, hunreached j (by omega) hj]
  · rw [slotEnabled_write hf hslots, hen j hj, List.length_append, List.length_singleton]
    have hle := Nat.mod_le contents.length (capacity p k)
    refine ⟨fun h => by omega, fun h => ?_⟩
    by_cases hlt : contents.length < capacity p k
    · rw [Nat.mod_eq_of_lt hlt]; omega
    · omega

/-- The next state of RB_ADD, seen through its ring (R133). -/
theorem execAt_rbAdd (hf : p.Fits) (k : MsgClass) (content : List Byte) (s : State) :
    ∃ t, execAt p (.rbAdd k content) s = .next t ∧
      t.slots k = (s.slots k).writeBytes (slotAddr p (clamp p k (s.wCursor k)) 0) (slotImage p content) ∧
      t.wCursor k = nextCursor p k (clamp p k (s.wCursor k)) ∧ t.dCursor k = s.dCursor k ∧
      t.output = s.output ++ [[]] :=
  ⟨_, rfl, by simp, by simp [State.wCursor_setW _ hf k k (nextCursor_lt hf k _)], by simp, by simp⟩

/-- RB_INIT and the additions complete, each with an empty response. -/
theorem execAllAt_rbAdds (hf : p.Fits) (k : MsgClass) (contents : List (List Byte)) (s : State) :
    ∃ t, execAllAt p (.rbInit k :: contents.map (Instr.rbAdd k)) s = .next t ∧ Lapped p k contents t ∧
      t.output = s.output ++ List.replicate (contents.length + 1) [] := by
  induction contents using List.reverseRecOn with
  | nil =>
    have h0 := capacity_pos hf k
    refine ⟨((UnitUpdate.ring k Memory.zeroed 0 0).apply s).addResponses [[]], rfl, lapped_nil ?_ ?_ ?_, by simp⟩
    · simp [UnitUpdate.apply]
    · simp [UnitUpdate.apply, State.wCursor_setW _ hf k k h0]
    · simp [UnitUpdate.apply, State.dCursor_setD _ hf k k h0]
  | append_singleton contents content ih =>
    obtain ⟨u, hrun, hu, hout⟩ := ih
    obtain ⟨t, hadd, hslots, hw, hd, hout'⟩ := execAt_rbAdd hf k content u
    refine ⟨t, ?_, hu.add hf hslots hw hd, ?_⟩
    · rw [List.map_append, ← List.cons_append, execAllAt_append, hrun, andThen_next]
      exact (congrArg (andThen · (execAllAt p [])) hadd)
    · rw [hout', hout, List.append_assoc, List.length_append, List.length_singleton, ← List.replicate_succ']

/-- Of the first `n` numbers, those below `m` are `min m n`. -/
theorem length_filter_lt_range (m n : Nat) : ((List.range n).filter (fun j => decide (j < m))).length = min m n := by
  induction n with
  | zero => simp
  | succ n ih =>
    rw [List.range_succ, List.filter_append, List.length_append, ih]
    by_cases h : n < m
    · simp [h]; omega
    · simp [h]; omega

/-- The enabled slots are counted (R136, R139). -/
theorem Lapped.enabledCount_eq {k : MsgClass} {contents : List (List Byte)} {t : State} (h : Lapped p k contents t) :
    enabledCount p k t = min contents.length (capacity p k) := by
  have hflags : ∀ j ∈ List.range (capacity p k), t.slotEnabled p k j = decide (j < contents.length) := fun j hj =>
    Bool.eq_iff_iff.mpr ((h.enabled_iff j (List.mem_range.mp hj)).trans decide_eq_true_iff.symm)
  rw [enabledCount, List.filter_congr hflags, length_filter_lt_range]

/-- Settles O49: each addition goes to the slot after the last entry's, and the slots reached are the enabled ones. -/
theorem lappingKeepsTheMostRecent : Obligations.LappingKeepsTheMostRecent := by
  intro k contents s hlen
  obtain ⟨t, hrun, ht, -⟩ := execAllAt_rbAdds Config.default_fits k contents s
  refine ⟨t, (execAllAt_default _ _).symm.trans hrun, ht.w_eq, fun i c hi hle => ?_, ht.unreached, ?_⟩
  · rw [ht.recent i c hi hle, slotImage_of_length (hlen c (List.mem_of_getElem? hi))]
  · rw [exec_rbCount, ht.enabledCount_eq]; rfl

/-! ### An entry read back -/

/-- The responses are no part of a ring. -/
theorem Lapped.addResponses {k : MsgClass} {contents : List (List Byte)} {t : State} (h : Lapped p k contents t)
    (rs : List (List Byte)) : Lapped p k contents (t.addResponses rs) := by
  obtain ⟨hw, hd, hrecent, hunreached, hen⟩ := h
  cases k <;> exact ⟨hw, hd, hrecent, hunreached, hen⟩

/-- With an entry in the ring, RB_FIND from slot 0 finds slot 0, where the cursor stays (R134). -/
theorem Lapped.execAt_rbFind (hf : p.Fits) {k : MsgClass} {content : List Byte} {contents : List (List Byte)}
    {t : State} (h : Lapped p k (content :: contents) t) :
    execAt p (.rbFind k) t = .next (t.addResponses [[0x01, 0x00]]) := by
  have h0 := capacity_pos hf k
  have hfound : findSlot p k (clamp p k (t.dCursor k)) t = some 0 := by
    rw [h.d_eq, clamp_of_lt h0, findSlot_here h0 ((h.enabled_iff 0 h0).mpr (Nat.zero_lt_succ _))]
  have hstay : t.setD k 0 = t := by rw [← h.d_eq, State.setD_self]
  simp only [execAt, execRbFindAt, hfound, hstay]
  rfl

/-- With one entry in the ring, RB_READ answers it and RB_COUNT answers 1 (R136, R138). -/
theorem Lapped.execAt_rbRead_rbCount (hf : p.Fits) {k : MsgClass} {content : List Byte} {t : State}
    (h : Lapped p k [content] t) :
    execAt p (.rbRead k) t = .next (t.addResponses [slotImage p content]) ∧
      execAt p (.rbCount k) t = .next (t.addResponses [[0x01]]) := by
  have h0 := capacity_pos hf k
  have hslot : t.slotBytes p k 0 = slotImage p content := by
    have := h.recent 0 content rfl (Nat.le_add_left_of_le h0)
    rwa [Nat.zero_mod] at this
  have hone : enabledCount p k t = 1 := h.enabledCount_eq.trans (Nat.min_eq_left h0)
  constructor
  · rw [execAt, execRbReadAt, h.d_eq, clamp_of_lt h0, hslot, respond_eq]
  · rw [execAt, execRbCountAt, hone, respond_eq]; rfl

/-- An entry added to an emptied ring is found, read back whole and counted. -/
theorem execAllAt_readBack (hf : p.Fits) (k : MsgClass) {content : List Byte} (s : State)
    (hlen : content.length + 2 = p.slotBytes) :
    ∃ t, execAllAt p [.rbInit k, .rbAdd k content, .rbFind k, .rbRead k, .rbCount k] s = .next t ∧
      t.output = s.output ++ [[], [], [0x01, 0x00], [p.enValue, 0x00] ++ content, [0x01]] := by
  obtain ⟨t, hrun, ht, hout⟩ := execAllAt_rbAdds hf k [content] s
  have hfull : slotImage p content = [p.enValue, 0x00] ++ content :=
    slotImage_of_length (by have := contentBytes_add_two hf; omega)
  obtain ⟨hread, -⟩ := (ht.addResponses [[0x01, 0x00]]).execAt_rbRead_rbCount hf
  obtain ⟨-, hcount⟩ := ((ht.addResponses [[0x01, 0x00]]).addResponses [slotImage p content]).execAt_rbRead_rbCount hf
  have hops : ([.rbInit k, .rbAdd k content, .rbFind k, .rbRead k, .rbCount k] : List Instr) =
      (.rbInit k :: [content].map (Instr.rbAdd k)) ++ [.rbFind k, .rbRead k, .rbCount k] := rfl
  refine ⟨t.addResponses [[0x01, 0x00], slotImage p content, [0x01]], ?_, ?_⟩
  · rw [hops, execAllAt_append, hrun, andThen_next]
    simp only [execAllAt, ht.execAt_rbFind hf, hread, hcount, andThen_next]
    rw [addResponses_addResponses, addResponses_addResponses]
    rfl
  · rw [addResponses_output, hout, hfull, List.append_assoc]
    rfl

/-- Settles O48: the one slot reached is the one found, read and counted. -/
theorem addedEntryIsReadBack : Obligations.AddedEntryIsReadBack := by
  refine ⟨fun k content s hlen => ?_, fun p k content s hf hlen => execAllAt_readBack hf k s hlen⟩
  rw [← execAllAt_default]
  exact execAllAt_readBack Config.default_fits k s (by rw [hlen])

end Sys2Proof.Machine
